-- ==== Sys2Proof/Word.lean ====
section
/-! DEFINITION. The machine's plain value types: the byte, the 32-bit register word and the Pixel. -/

namespace Sys2Proof

/-- A `u8`: a stream byte or one channel of a pixel (`00_scope.md` §5, R72). -/
abbrev Byte := BitVec 8

/-- A 32-bit unsigned register: WIDTH, HEIGHT, row, col, FROW, FCOL (R15, R17, R20). -/
abbrev Word := BitVec 32

/-- "four independent 8-bit unsigned channels" (`00_scope.md` §5, R41): a record, with no packed form. -/
structure Pixel where
  r : Byte
  g : Byte
  b : Byte
  a : Byte
  deriving DecidableEq, Repr

/-- `{0,0,0,0}`: the content of a History Table slot at decode start (R21). -/
def Pixel.zero : Pixel := ⟨0, 0, 0, 0⟩

/-- `{0,0,0,255}`: `last_pix` at decode start (R10). -/
def Pixel.start : Pixel := ⟨0, 0, 0, 255⟩

end Sys2Proof
end

