-- ==== Sys2Proof/Syntax.lean ====
section
/-! DEFINITION. The six chunk operations and their decoded form (`30_encoding.md`, `opcode_table.json`). -/

namespace Sys2Proof

/-- The operation a tag byte selects (R51, arms 1 to 6, in the dispatch's order). -/
inductive Op where
  | rgb | rgba | index | diff | luma | run
  deriving DecidableEq, Repr

/-- A chunk, decoded: one constructor per row of the opcode table, its operands the STORED (unsigned, biased) fields
at the widths of the table under R59. -/
inductive Instr where
  /-- QOI_OP_RGB (R53, R90): literal red, green, blue. -/
  | rgb (r g b : Byte)
  /-- QOI_OP_RGBA (R54, R91): literal red, green, blue, alpha. -/
  | rgba (r g b a : Byte)
  /-- QOI_OP_INDEX (R55, R95): a History Table slot number. -/
  | index (index : BitVec 6)
  /-- QOI_OP_DIFF (R56, R100): stored red, green, blue deltas, bias 2. -/
  | diff (vr vg vb : BitVec 2)
  /-- QOI_OP_LUMA (R57, R101): stored green delta, bias 32, and stored red and blue deltas relative to it, bias 8. -/
  | luma (vg : BitVec 6) (vrg vbg : BitVec 4)
  /-- QOI_OP_RUN (R58, R110): stored run length, 0..61. -/
  | run (vrun : BitVec 6)
  deriving DecidableEq, Repr

/-- The operation of a chunk. -/
def Instr.op : Instr → Op
  | .rgb _ _ _ => .rgb
  | .rgba _ _ _ _ => .rgba
  | .index _ => .index
  | .diff _ _ _ => .diff
  | .luma _ _ _ => .luma
  | .run _ => .run

end Sys2Proof
end

