-- ==== Sys2Proof/WellFormed.lean ====
section
/-! DEFINITION. Which decoded chunks have an encoding. The operand widths of `Instr` leave one check: RUN's stored
value is 0..61, because the bytes that would hold 62 and 63 are the tags of RGB and RGBA (R58). -/

namespace Sys2Proof

/-- The chunk has an encoding: a RUN's stored value is at most 61 (R58), everything else is legal (R60). -/
def Instr.wellFormed : Instr → Bool
  | .rgb _ _ _ => true
  | .rgba _ _ _ _ => true
  | .index _ => true
  | .diff _ _ _ => true
  | .luma _ _ _ => true
  | .run vrun => decide (vrun.toNat ≤ 61)

end Sys2Proof
end

