-- ==== Sys2Proof/Decode.lean ====
section
/-! DEFINITION. From stream bytes to a chunk and back (`30_encoding.md`). The decoder is total and rejects by name;
the encoder is written from the same format tables (R53 to R58, R63). -/

namespace Sys2Proof

/-- Why no chunk can be read from the bytes at the cursor. -/
inductive DecodeError where
  /-- There is no tag byte (R121 case (a)). -/
  | noTag
  /-- The tag's operation needs more bytes than there are (R121 cases (b), (c), (d)). -/
  | truncated (op : Op)
  /-- The tag matches none of the six operations (R51 arm 7). No byte does (R60); the arm is kept (R61). -/
  | unrecognizedTag (tag : Byte)
  deriving DecidableEq, Repr

/-- R51: the seven arms in priority order. `none` is arm 7. -/
def classify (tag : Byte) : Option Op :=
  if tag = 0xFE#8 then some .rgb
  else if tag = 0xFF#8 then some .rgba
  else if tag.extractLsb' 6 2 = 0b00#2 then some .index
  else if tag.extractLsb' 6 2 = 0b01#2 then some .diff
  else if tag.extractLsb' 6 2 = 0b10#2 then some .luma
  else if tag.extractLsb' 6 2 = 0b11#2 then some .run
  else none

/-- R52: the length of an operation's chunk in bytes, tag included. -/
def Op.length : Op → Nat
  | .rgb => 4
  | .rgba => 5
  | .index => 1
  | .diff => 1
  | .luma => 2
  | .run => 1

/-- The length of a chunk in bytes (R52). -/
def Instr.length (i : Instr) : Nat := i.op.length

/-- `tag[5:0]`, the 6-bit field of INDEX, LUMA and RUN (R55, R57, R58). -/
def tagField (tag : Byte) : BitVec 6 := tag.extractLsb' 0 6

/-- DIFF's three stored deltas `vr = tag[5:4]`, `vg = tag[3:2]`, `vb = tag[1:0]` (R56).
PRESUMED: the bit positions are the spec's general knowledge (G1), kept in this one place; unsafe (log entry 8). -/
def diffFields (tag : Byte) : BitVec 2 × BitVec 2 × BitVec 2 :=
  (tag.extractLsb' 4 2, tag.extractLsb' 2 2, tag.extractLsb' 0 2)

/-- The DIFF tag of three stored deltas: `diffFields` the other way. -/
def diffTag (vr vg vb : BitVec 2) : Byte := 0b01#2 ++ vr ++ vg ++ vb

/-- LUMA's second byte: the high nibble `vrg`, the low nibble `vbg` (R57). -/
def lumaFields (b1 : Byte) : BitVec 4 × BitVec 4 := (b1.extractLsb' 4 4, b1.extractLsb' 0 4)

/-- RGB's operand bytes r, g, b (R53). -/
def decodeRgb : List Byte → Except DecodeError (Instr × List Byte)
  | r :: g :: b :: rest => .ok (.rgb r g b, rest)
  | _ => .error (.truncated .rgb)

/-- RGBA's operand bytes r, g, b, a (R54). -/
def decodeRgba : List Byte → Except DecodeError (Instr × List Byte)
  | r :: g :: b :: a :: rest => .ok (.rgba r g b a, rest)
  | _ => .error (.truncated .rgba)

/-- LUMA's second byte (R57). -/
def decodeLuma (tag : Byte) : List Byte → Except DecodeError (Instr × List Byte)
  | b1 :: rest => .ok (.luma (tagField tag) (lumaFields b1).1 (lumaFields b1).2, rest)
  | [] => .error (.truncated .luma)

/-- A DIFF chunk is its tag alone (R56). -/
def decodeDiff (tag : Byte) : Instr :=
  .diff (diffFields tag).1 (diffFields tag).2.1 (diffFields tag).2.2

/-- The operands of an operation, from its tag and the bytes that follow the tag; the bytes after the chunk come back
beside the chunk. -/
def decodeOperands (op : Op) (tag : Byte) (rest : List Byte) : Except DecodeError (Instr × List Byte) :=
  match op with
  | .rgb => decodeRgb rest
  | .rgba => decodeRgba rest
  | .index => .ok (.index (tagField tag), rest)
  | .diff => .ok (decodeDiff tag, rest)
  | .luma => decodeLuma tag rest
  | .run => .ok (.run (tagField tag), rest)

/-- The chunk at the head of a byte list and the bytes after it, or why there is none. -/
def decode (bytes : List Byte) : Except DecodeError (Instr × List Byte) :=
  match bytes with
  | [] => .error .noTag
  | tag :: rest =>
    match classify tag with
    | some op => decodeOperands op tag rest
    | none => .error (.unrecognizedTag tag)

/-- The bytes of a chunk, in stream order (R53 to R58, R63). -/
def encode : Instr → List Byte
  | .rgb r g b => [0xFE#8, r, g, b]
  | .rgba r g b a => [0xFF#8, r, g, b, a]
  | .index i => [0b00#2 ++ i]
  | .diff vr vg vb => [diffTag vr vg vb]
  | .luma vg vrg vbg => [0b10#2 ++ vg, vrg ++ vbg]
  | .run vrun => [0b11#2 ++ vrun]

/-- The longest chunk (RGBA, R52). -/
def longestChunk : Nat := 5

/-- Byte `k` of a table word: bits `8k+7` to `8k`, the first byte of the chunk being bits 7 to 0; every bit at or above
`nbits` is 0. -/
def tableByte (nbits w k : Nat) : Byte := BitVec.ofNat 8 ((w % 2 ^ nbits) / 2 ^ (8 * k))

/-- A table word laid out as the stream holds it: first byte first (R39), up to the longest chunk. -/
def tableBytes (nbits w : Nat) : List Byte := (List.range longestChunk).map (tableByte nbits w)

/-- The chunk the decoder reads from a word numbered as `opcode_table.json` numbers it. -/
def decodeTableWord (nbits w : Nat) : Option Instr :=
  match decode (tableBytes nbits w) with
  | .ok (i, _) => some i
  | .error _ => none

end Sys2Proof
end

