-- ==== Sys2Proof/Config.lean ====
section
/-! DEFINITION. What the spec leaves to the implementation: the free value of FBYTE. The other open parameters are
arguments or data (WIDTH, HEIGHT, IN, the Grid and MAX_PIXELS are handed over by the host, R5, R133). -/

namespace Sys2Proof

/-- What FBYTE holds after a TruncatedStream fault, which R124 leaves unspecified (U7): the `n`-th value drawn.
It has no body, so nothing can be proved of it (log entry 1). -/
opaque Config.unspecifiedByte : Nat → Byte

end Sys2Proof
end

