-- ==== Sys2Proof/Machine/State.lean ====
section
/-! DEFINITION. The block's whole architectural state as plain data (`10_state.md`), its value after reset, and the
named reasons a step or a host move can stop. -/

namespace Sys2Proof.Machine

/-- STATUS (R19): no step is enabled unless it is BUSY. -/
inductive Status where
  /-- 0: reset done, no decode started. -/
  | idle
  /-- 1: a decode is in progress; steps are enabled. -/
  | busy
  /-- 2: the grid is fully populated and valid. -/
  | done
  /-- 3: a decode error ended the decode; the grid is not valid. -/
  | fault
  deriving DecidableEq, Repr

/-- FCAUSE (R20, R120). -/
inductive FaultCause where
  /-- 0: no fault so far. -/
  | none
  /-- 1: the chunk at the cursor is not wholly inside the stream (R121). -/
  | truncatedStream
  /-- 2: the tag matches none of the six operations (R122). -/
  | unrecognizedTag
  deriving DecidableEq, Repr

/-- The Grid `G` (R24): `size` cells, of which `cells` lists those that hold a value, as (linear index, pixel), the
indices strictly rising. A cell that is not listed has no defined content (R143, D15): it holds no value, so there is no
value an entry could repeat. DESIGN CHOICE: one entry per cell, the grid space's smallest unit (R30); safe (log entry 9). -/
structure Memory where
  size : Nat
  cells : List (Nat × Pixel)
  deriving DecidableEq, Repr

/-- A Grid of `size` cells none of which has a defined content (R143). -/
def Memory.blank (size : Nat) : Memory := ⟨size, []⟩

/-- The canonical form: indices strictly rising, each a cell of the Grid. -/
def Memory.wf (m : Memory) : Bool :=
  decide (m.cells.Pairwise fun x y => x.1 < y.1) && m.cells.all fun x => decide (x.1 < m.size)

/-- Every piece of state of `10_state.md` §1, and `freeCount`, which is the model's own (log entry 1). -/
structure State where
  /-- `last_pix` (R10): the most recently produced output pixel. -/
  lastPix : Pixel
  /-- `run_length` (R11, R12): further positions that repeat `last_pix` without reading a byte. -/
  runLength : BitVec 6
  /-- `T[0..63]` (R21): the History Table. -/
  table : Vector Pixel 64
  /-- `pc` (R13, R14): the stream offset of the next unread byte, a natural number (log entry 12). -/
  pc : Nat
  /-- `row` (R15): the row the next step writes. -/
  row : Word
  /-- `col` (R15): the column the next step writes. -/
  col : Word
  /-- `WIDTH` (R17): supplied by the host; no step writes it (log entry 14). -/
  width : Word
  /-- `HEIGHT` (R17): supplied by the host; no step writes it (log entry 14). -/
  height : Word
  /-- `STATUS` (R19). -/
  status : Status
  /-- `FCAUSE` (R20). -/
  fcause : FaultCause
  /-- `FBYTE` (R20): the offending tag; meaningful only when FCAUSE is 2. -/
  fbyte : Byte
  /-- `FROW` (R20). -/
  frow : Word
  /-- `FCOL` (R20). -/
  fcol : Word
  /-- `G` (R24). -/
  grid : Memory
  /-- `IN[0..LEN-1]` (R25, R32): the stream; `LEN` is its length. No step writes it (log entry 14). -/
  input : List Byte
  /-- The model's own: how many free values have been drawn for FBYTE (log entry 1). -/
  freeCount : Nat
  deriving DecidableEq, Repr

/-- Why the machine stops with a fault that is not one of the block's own (those are next states, R124). -/
inductive Fault where
  /-- Raised by the write-back of any step whose cell `row × WIDTH + col` is not a cell of the Grid. R35: the bounds
  check can never fail; no step from a started decode raises this. Safe (log entry 10). -/
  | gridOutOfBounds
  deriving DecidableEq, Repr

/-- Why there is no move. -/
inductive Refusal where
  /-- Raised only by an arm of `exec` whose instruction has no meaning yet; no arm is one. Safe. -/
  | notModelled (mnemonic : String)
  /-- Raised by `step` when STATUS is not BUSY: no step is enabled (R19, R78, R125). Safe (log entry 6). -/
  | noStepEnabled (status : Status)
  /-- Raised by `hostStart`: WIDTH or HEIGHT is 0 (R146, U9). Safe (log entry 16). -/
  | zeroDimension
  /-- Raised by `hostStart`: STATUS is BUSY (R146, U10). Safe (log entry 16). -/
  | startWhileBusy
  /-- Raised by `hostStart`: the Grid has fewer than WIDTH × HEIGHT cells (R146, U12). Safe (log entry 16). -/
  | gridTooSmall
  /-- Raised by `hostStart`: more pixels than the implementation's MAX_PIXELS (D23, U14). Safe (log entry 13). -/
  | imageTooLarge
  /-- Raised by `hostSetDimensions`: STATUS is BUSY (R20's access rights, R146, U11). Safe (log entry 16). -/
  | dimensionsWhileBusy
  /-- Raised by `hostReadCell`: STATUS is BUSY and the block owns the Grid (R37, R146, U11). Safe (log entry 16). -/
  | gridWhileBusy
  /-- Raised by `hostReadCell`: STATUS is IDLE or FAULT, so the Grid is no output (R38, R126, U8). Safe (log entry 16). -/
  | gridNotAnOutput
  deriving DecidableEq, Repr

/-- What a step or a move answers. -/
abbrev Result := Host.Outcome State Fault Refusal

/-- The machine right after reset (R140): the decode-start values of `10_state.md` §9 with STATUS IDLE. R140 gives no
value to WIDTH, HEIGHT, IN and the Grid, which the host has not supplied yet. DESIGN CHOICE: zero dimensions, the empty
stream and a Grid of no cells; unsafe (log entries 2, 3, 4). -/
def State.reset : State where
  lastPix := Pixel.start
  runLength := 0
  table := Vector.replicate 64 Pixel.zero
  pc := 0
  row := 0
  col := 0
  width := 0
  height := 0
  status := .idle
  fcause := .none
  fbyte := 0
  frow := 0
  fcol := 0
  grid := Memory.blank 0
  input := []
  freeCount := 0

end Sys2Proof.Machine
end

