-- ==== Sys2Proof/Machine/Flags.lean ====
section
/-! DEFINITION. The block has no flags and no condition codes (R16). What a step tests instead: the state InRun, the
presence of a chunk, the end of the grid; and the numeric codes the host reads for STATUS and FCAUSE. -/

namespace Sys2Proof.Machine

/-- R16: the machine is in InRun exactly when `run_length > 0`, else in AwaitingByte. -/
def State.inRun (s : State) : Bool := decide (0 < s.runLength.toNat)

/-- `LEN` (R32). -/
def State.len (s : State) : Nat := s.input.length

/-- `row × WIDTH + col` (R15, R35), exact. -/
def State.linear (s : State) : Nat := s.row.toNat * s.width.toNat + s.col.toNat

/-- The number of cells a decode of these dimensions fills, `WIDTH × HEIGHT` (R24). -/
def State.pixels (s : State) : Nat := s.width.toNat * s.height.toNat

/-- The code of STATUS (R19). -/
def Status.code : Status → BitVec 2
  | .idle => 0
  | .busy => 1
  | .done => 2
  | .fault => 3

/-- The code of FCAUSE (R20). -/
def FaultCause.code : FaultCause → BitVec 2
  | .none => 0
  | .truncatedStream => 1
  | .unrecognizedTag => 2

end Sys2Proof.Machine
end

