-- ==== Sys2Proof/Machine/Operands.lean ====
section
/-! DEFINITION. How an operation's operands become a pixel: field extension and biases (R59), the 8-bit wraparound
arithmetic unit (R70, R71), the hash unit (R74) and the bus form of a Pixel (R41). -/

namespace Sys2Proof.Machine

/-- R59: every field is zero-extended to 8 bits. -/
def zext8 {n : Nat} (v : BitVec n) : Byte := v.setWidth 8

/-- R70: `(x + y) mod 256`. -/
def add8 (x y : Byte) : Byte := x + y

/-- R70: `(x + 256 - y) mod 256`. -/
def sub8 (x y : Byte) : Byte := x - y

/-- R71: a biased stored field `v` applied to a channel `x`. -/
def applyBias (x v bias : Byte) : Byte := sub8 (add8 x v) bias

/-- DIFF's bias (R4, R56). -/
def diffBias : Byte := 2

/-- LUMA's green bias (R4, R57). -/
def lumaGreenBias : Byte := 32

/-- LUMA's red-minus-green and blue-minus-green bias (R4, R57). -/
def lumaChromaBias : Byte := 8

/-- DIFF's pixel (R100): each colour channel moved by its stored delta less 2, alpha kept. -/
def diffPixel (last : Pixel) (vr vg vb : BitVec 2) : Pixel where
  r := applyBias last.r (zext8 vr) diffBias
  g := applyBias last.g (zext8 vg) diffBias
  b := applyBias last.b (zext8 vb) diffBias
  a := last.a

/-- LUMA's green delta as a `u8` (R101, `dg8`). -/
def lumaGreenDelta (vg : BitVec 6) : Byte := sub8 (zext8 vg) lumaGreenBias

/-- A LUMA chroma channel (R101): green's delta plus the stored nibble less 8. -/
def lumaChroma (x : Byte) (vg : BitVec 6) (nibble : BitVec 4) : Byte :=
  add8 x (add8 (lumaGreenDelta vg) (sub8 (zext8 nibble) lumaChromaBias))

/-- LUMA's pixel (R101), alpha kept. -/
def lumaPixel (last : Pixel) (vg : BitVec 6) (vrg vbg : BitVec 4) : Pixel where
  r := lumaChroma last.r vg vrg
  g := add8 last.g (lumaGreenDelta vg)
  b := lumaChroma last.b vg vbg
  a := last.a

/-- R74's sum of products, in exact integer arithmetic. -/
def pixelHashSum (p : Pixel) : Nat := 3 * p.r.toNat + 5 * p.g.toNat + 7 * p.b.toNat + 11 * p.a.toNat

/-- R74: the table slot of a pixel. -/
def pixelHash (p : Pixel) : BitVec 6 := BitVec.ofNat 6 (pixelHashSum p % 64)

/-- The bus form of a Pixel (R41, D12): r in bits 31:24, g in 23:16, b in 15:8, a in 7:0. No rule depends on it. -/
def packPixel (p : Pixel) : Word := p.r ++ p.g ++ p.b ++ p.a

/-- The Pixel a bus word carries (R41). -/
def unpackPixel (w : Word) : Pixel where
  r := w.extractLsb' 24 8
  g := w.extractLsb' 16 8
  b := w.extractLsb' 8 8
  a := w.extractLsb' 0 8

end Sys2Proof.Machine
end

