-- ==== Sys2Proof/Machine/Ops.lean ====
section
/-! DEFINITION. The named operations every meaning is built from: the stream, the History Table and the Grid; the
write-back, advance and termination common to all step kinds (R80 to R82); and fault entry (R124). There is no return
from a fault beside it: "no trap return, no handler and no nesting" (R129); the ways out are `hostReset` and `hostStart`. -/

namespace Sys2Proof.Machine

/-- R31: `MemRead(a, n)` gives the `n` bytes at offset `a`, or nothing where the stream ends first. -/
def State.memRead (s : State) (a n : Nat) : Option (List Byte) :=
  if a + n ≤ s.len then some ((s.input.drop a).take n) else none

/-- R79: the cursor moves over the `n` bytes of the chunk just decoded. -/
def State.advanceCursor (s : State) (n : Nat) : State := { s with pc := s.pc + n }

/-- The slot number as an index of the table: 6 bits address exactly 64 slots (R95 corner case 6). -/
theorem slot_lt (i : BitVec 6) : i.toNat < 64 := i.isLt

/-- `T[i]` (R21). -/
def State.slot (s : State) (i : BitVec 6) : Pixel := s.table[i.toNat]'(slot_lt i)

/-- `T[i] <- p` (R21): the whole slot. -/
def State.setSlot (s : State) (i : BitVec 6) (p : Pixel) : State :=
  { s with table := s.table.set i.toNat p (slot_lt i) }

/-- R76: `T[hash(px)] <- px`, whatever the slot held. -/
def State.recordToCache (s : State) (px : Pixel) : State := s.setSlot (pixelHash px) px

/-- The content of grid cell `k`, or no value where none is defined (R143). -/
def Memory.read (m : Memory) (k : Nat) : Option Pixel := m.cells.lookup k

/-- An entry put where it belongs in the rising order, in place of an entry of the same index. -/
def insertCell (k : Nat) (p : Pixel) : List (Nat × Pixel) → List (Nat × Pixel)
  | [] => [(k, p)]
  | (j, q) :: rest =>
    if k < j then (k, p) :: (j, q) :: rest
    else if k = j then (k, p) :: rest
    else (j, q) :: insertCell k p rest

/-- R35: `MemWrite(k, 1, p)`, bounds-checked. -/
def Memory.write (m : Memory) (k : Nat) (p : Pixel) : Option Memory :=
  if k < m.size then some { m with cells := insertCell k p m.cells } else none

/-- R81: the position moves one cell on in row-major order. -/
def State.advancePosition (s : State) : State :=
  if s.col + 1 = s.width then { s with col := 0, row := s.row + 1 } else { s with col := s.col + 1 }

/-- R82: STATUS becomes DONE when the last cell has been written. -/
def State.terminate (s : State) : State :=
  if s.row = s.height then { s with status := .done } else s

/-- Parts 2 to 4 of the step (R78, R80 to R82), once for every step kind (C3): `px` goes to the grid cell at the
position and to `last_pix`, the position advances, the end of the grid is tested. -/
def State.emit (s : State) (px : Pixel) : Result :=
  match s.grid.write s.linear px with
  | some g => .next ({ s with grid := g, lastPix := px }).advancePosition.terminate
  | none => .fault .gridOutOfBounds

/-- What a step raises (R120), with what the fault carries. -/
inductive Raised where
  | truncatedStream
  | unrecognizedTag (tag : Byte)
  deriving DecidableEq, Repr

/-- R124: fault entry. It writes the fault record and STATUS and nothing else; FROW and FCOL take the position of the
cell the failing step was to write. FBYTE is left unspecified by a TruncatedStream: a free value (log entry 1). -/
def State.takeFault (s : State) : Raised → State
  | .truncatedStream =>
    { s with fcause := .truncatedStream, fbyte := Config.unspecifiedByte s.freeCount, freeCount := s.freeCount + 1,
             frow := s.row, fcol := s.col, status := .fault }
  | .unrecognizedTag tag =>
    { s with fcause := .unrecognizedTag, fbyte := tag, frow := s.row, fcol := s.col, status := .fault }

/-- An operation whose chunk is `n` bytes long first performs `MemRead(pc, n)`, before any effect (R79): the operation
goes on where the chunk is wholly there, and TruncatedStream is taken where it is not (R121). -/
def State.withChunk (s : State) (n : Nat) (body : State → Result) : Result :=
  match s.memRead s.pc n with
  | some _ => body s
  | none => .next (s.takeFault .truncatedStream)

/-- What a failed fetch raises (R120, R127): a missing tag or missing operand bytes are TruncatedStream, a tag of none
of the six operations is UnrecognizedTag. -/
def raisedBy : DecodeError → Raised
  | .noTag => .truncatedStream
  | .truncated _ => .truncatedStream
  | .unrecognizedTag tag => .unrecognizedTag tag

/-- The chunk at the cursor (R13, R50), or why there is none. -/
def State.fetch (s : State) : Except DecodeError Instr :=
  match decode (s.input.drop s.pc) with
  | .ok (i, _) => .ok i
  | .error e => .error e

/-- The bytes `bytes` put into a stream at offset `a`, over what stood there. The stream is lengthened as far as it must
be, with zero bytes below `a`. -/
def placeBytes (stream : List Byte) (a : Nat) (bytes : List Byte) : List Byte :=
  stream.take a ++ List.replicate (a - stream.length) 0 ++ bytes ++ stream.drop (a + bytes.length)

/-- R141's assignments: the decode-start state with STATUS BUSY, for the dimensions, stream and number of grid cells the
host hands over (R133). The Grid has no defined content until written (R143). -/
def State.decodeStart (s : State) (width height : Word) (input : List Byte) (gridCells : Nat) : State :=
  { s with
    lastPix := Pixel.start, runLength := 0, table := Vector.replicate 64 Pixel.zero, pc := 0, row := 0, col := 0,
    fcause := .none, fbyte := 0, frow := 0, fcol := 0, status := .busy,
    width := width, height := height, input := input, grid := Memory.blank gridCells }

/-- A step can write its cell: STATUS is BUSY and the position is a cell of the image and of the Grid. -/
def State.positionOpen (s : State) : Bool :=
  decide (s.status = .busy ∧ s.row.toNat < s.height.toNat ∧ s.col.toNat < s.width.toNat ∧ s.linear < s.grid.size)

/-- A state whose next step fetches `bytes` at the cursor: the decode in progress, or else a decode started for it with
a 256 × 256 grid. DESIGN CHOICE: the dimensions; log entry 5. -/
def State.placeChunk (s : State) (bytes : List Byte) : State :=
  let t := if s.positionOpen then s else s.decodeStart 256 256 s.input 65536
  { t with runLength := 0, input := placeBytes t.input t.pc bytes }

end Sys2Proof.Machine
end

