-- ==== Sys2Proof/Machine/Delta.lean ====
section
/-! DEFINITION. The delta operations DIFF and LUMA (`43_delta.md`). -/

namespace Sys2Proof.Machine

/-- R100: the previous pixel with each colour channel moved by its own small delta; recorded. -/
def execDiff (vr vg vb : BitVec 2) (s : State) : Result :=
  s.withChunk 1 fun s =>
    let px := diffPixel s.lastPix vr vg vb
    ((s.recordToCache px).advanceCursor 1).emit px

/-- R101: the previous pixel moved by green's delta, red and blue by a further nibble each; recorded. -/
def execLuma (vg : BitVec 6) (vrg vbg : BitVec 4) (s : State) : Result :=
  s.withChunk 2 fun s =>
    let px := lumaPixel s.lastPix vg vrg vbg
    ((s.recordToCache px).advanceCursor 2).emit px

end Sys2Proof.Machine
end

