-- ==== Sys2Proof/Machine/Index.lean ====
section
/-! DEFINITION. The cache lookup INDEX (`42_index.md`). -/

namespace Sys2Proof.Machine

/-- R95: the pixel is slot `i`, verbatim; the table is not written. -/
def execIndex (i : BitVec 6) (s : State) : Result :=
  s.withChunk 1 fun s => (s.advanceCursor 1).emit (s.slot i)

end Sys2Proof.Machine
end

