-- ==== Sys2Proof/Machine/Literal.lean ====
section
/-! DEFINITION. The literal operations RGB and RGBA (`41_literal.md`). -/

namespace Sys2Proof.Machine

/-- R90: literal red, green and blue; the alpha of the previous pixel; recorded. -/
def execRgb (r g b : Byte) (s : State) : Result :=
  s.withChunk 4 fun s =>
    let px : Pixel := ⟨r, g, b, s.lastPix.a⟩
    ((s.recordToCache px).advanceCursor 4).emit px

/-- R91: all four channels literal; recorded. -/
def execRgba (r g b a : Byte) (s : State) : Result :=
  s.withChunk 5 fun s =>
    let px : Pixel := ⟨r, g, b, a⟩
    ((s.recordToCache px).advanceCursor 5).emit px

end Sys2Proof.Machine
end

