-- ==== Sys2Proof/Machine/Run.lean ====
section
/-! DEFINITION. The run-length decoder: RUN and the run continuation (`44_run.md`). -/

namespace Sys2Proof.Machine

/-- R110: the previous pixel once more, and `run_length` further repeats to come; the table is not written. -/
def execRun (vrun : BitVec 6) (s : State) : Result :=
  s.withChunk 1 fun s => ({ s with runLength := vrun }.advanceCursor 1).emit s.lastPix

/-- R112: a step taken in InRun. It reads no byte, so it cannot be truncated; `pc` and the table are unchanged. -/
def runContinuation (s : State) : Result := { s with runLength := s.runLength - 1 }.emit s.lastPix

end Sys2Proof.Machine
end

