-- ==== Sys2Proof/Machine/Dispatch.lean ====
section
/-! DEFINITION. One arm per chunk operation. -/

namespace Sys2Proof.Machine

-- The chunk's whole step from part 1 on (R78): its own effect, then write-back, advance and termination.
def exec (i : Instr) (s : State) : Host.Outcome State Fault Refusal :=
  match i with
  | .rgb r g b => Sys2Proof.Machine.execRgb r g b s
  | .rgba r g b a => Sys2Proof.Machine.execRgba r g b a s
  | .index n => Sys2Proof.Machine.execIndex n s
  | .diff vr vg vb => Sys2Proof.Machine.execDiff vr vg vb s
  | .luma vg vrg vbg => Sys2Proof.Machine.execLuma vg vrg vbg s
  | .run vrun => Sys2Proof.Machine.execRun vrun s

end Sys2Proof.Machine
end

