-- ==== Sys2Proof/Machine/Step.lean ====
section
/-! DEFINITION. The decode step (R78). -/

namespace Sys2Proof.Machine

/-- R78, enabled exactly when STATUS is BUSY. In InRun the step is a run continuation, before any fetch (R112, R127);
in AwaitingByte it fetches the chunk at the cursor and runs it, or takes the fault the fetch raises (R121, R122). -/
def step (s : State) : Host.Outcome State Fault Refusal :=
  match s.status with
  | .busy =>
    if s.inRun then runContinuation s
    else
      match s.fetch with
      | .ok i => exec i s
      | .error e => .next (s.takeFault (raisedBy e))
  | .idle => .refused (.noStepEnabled .idle)
  | .done => .refused (.noStepEnabled .done)
  | .fault => .refused (.noStepEnabled .fault)

/-- `s` with the chunk whose table word is `w` at the cursor, so that the next step fetches and runs it. It stands for
the host's start (R141) where no decode is in progress (log entry 5). -/
def State.withFetchWord (s : State) (nbits w : Nat) : State := s.placeChunk (tableBytes nbits w)

end Sys2Proof.Machine
end

