-- ==== Sys2Proof/Machine/HostPort.lean ====
section
/-! DEFINITION. What the host may do to the block (R133): reset, start, set the dimensions, read STATUS, the fault
record and the finished Grid. None of it is part of `step` (log entry 7). A move the spec leaves without meaning (R146)
is refused by name; touching the Grid, or changing IN, during a decode has no move at all. -/

namespace Sys2Proof.Machine

/-- R140: hardware reset, at any time. It does not touch `G`, `IN`, `WIDTH` or `HEIGHT`. -/
def hostReset (s : State) : State :=
  { s with
    lastPix := Pixel.start, runLength := 0, table := Vector.replicate 64 Pixel.zero, pc := 0, row := 0, col := 0,
    fcause := .none, fbyte := 0, frow := 0, fcol := 0, status := .idle }

/-- What the host hands over at start (R133): the dimensions, the stream after the 14-byte header (R33, R144) and a Grid
of `gridCells` cells. -/
structure StartRequest where
  width : Word
  height : Word
  input : List Byte
  gridCells : Nat
  deriving DecidableEq, Repr

/-- The number of pixels of the requested image. -/
def StartRequest.pixels (r : StartRequest) : Nat := r.width.toNat * r.height.toNat

/-- The image fits an implementation's MAX_PIXELS, where it has one (D23, U14; log entry 13). -/
def StartRequest.fits (maxPixels : Option Nat) (r : StartRequest) : Bool :=
  match maxPixels with
  | none => true
  | some n => decide (r.pixels ≤ n)

/-- R141: start, from IDLE, DONE or FAULT. A start the spec leaves without meaning is refused (R146). -/
def hostStart (maxPixels : Option Nat) (r : StartRequest) (s : State) : Result :=
  if s.status = .busy then .refused .startWhileBusy
  else if r.width = 0 ∨ r.height = 0 then .refused .zeroDimension
  else if r.gridCells < r.pixels then .refused .gridTooSmall
  else if r.fits maxPixels = false then .refused .imageTooLarge
  else .next (s.decodeStart r.width r.height r.input r.gridCells)

/-- The host writes WIDTH and HEIGHT, "only while `STATUS ≠ BUSY`" (`10_state.md` §5). DESIGN CHOICE (log entry 23):
a 0 may be written too; it is the start that refuses it. -/
def hostSetDimensions (width height : Word) (s : State) : Result :=
  if s.status = .busy then .refused .dimensionsWhileBusy
  else .next { s with width := width, height := height }

/-- The host reads STATUS, at any time (R133). -/
def hostReadStatus (s : State) : BitVec 2 := s.status.code

/-- The fault record as the host may read it (R20). `byte` is `none` where FBYTE is unspecified: FCAUSE 1 (R124, U7). -/
structure FaultRecord where
  cause : BitVec 2
  byte : Option Byte
  row : Word
  col : Word
  deriving DecidableEq, Repr

/-- The host reads the fault record, at any time (R20, R133): all 0 before a fault, FBYTE the tag after an
UnrecognizedTag. FBYTE after a TruncatedStream is not exposed (R124, U7; log entry 1). -/
def hostReadFaultRecord (s : State) : FaultRecord where
  cause := s.fcause.code
  byte := if s.fcause = .truncatedStream then none else some s.fbyte
  row := s.frow
  col := s.fcol

/-- The host reads grid cell `k`: only at DONE (R38, R133, R154). DESIGN CHOICE (log entry 24): the spec gives the host
the cells below WIDTH × HEIGHT only, and any other index is answered by `.ok none`, no value. -/
def hostReadCell (k : Nat) (s : State) : Except Refusal (Option Pixel) :=
  match s.status with
  | .done => .ok (s.grid.read k)
  | .busy => .error .gridWhileBusy
  | .idle => .error .gridNotAnOutput
  | .fault => .error .gridNotAnOutput

/-- The outcome of a decode as the host sees it (R126): the Grid or a fault, never both. -/
inductive Observation where
  | idle
  | busy
  | done (grid : Memory)
  | fault (record : FaultRecord)
  deriving DecidableEq, Repr

/-- What the host may know of a state (R38, R126, R133). -/
def observe (s : State) : Observation :=
  match s.status with
  | .idle => .idle
  | .busy => .busy
  | .done => .done s.grid
  | .fault => .fault (hostReadFaultRecord s)

end Sys2Proof.Machine
end

