-- ==== Sys2Proof/Safety.lean ====
section
/-! DEFINITION. The terms claims are stated in: what a step does to the common state, the invariant of the block (R85),
and runs of several steps. -/

namespace Sys2Proof.Machine

/-- Parts 2 to 4 of the step (R80 to R82), from `s` to `t`, with the pixel `px`: the grid cell at the position and
`last_pix` become `px`, the position moves on, STATUS becomes DONE at the end of the grid. Every other cell, the
dimensions, the stream and the fault record are as before. It leaves open `run_length`, the table and `pc`, which the
operations differ in. -/
structure Emitted (s t : State) (px : Pixel) : Prop where
  lastPix : t.lastPix = px
  cells : ∀ k, t.grid.read k = if k = s.linear then some px else s.grid.read k
  gridSize : t.grid.size = s.grid.size
  col : t.col = if s.col + 1 = s.width then 0 else s.col + 1
  row : t.row = if s.col + 1 = s.width then s.row + 1 else s.row
  status : t.status = if t.row = s.height then .done else s.status
  width : t.width = s.width
  height : t.height = s.height
  input : t.input = s.input
  fcause : t.fcause = s.fcause
  fbyte : t.fbyte = s.fbyte
  frow : t.frow = s.frow
  fcol : t.fcol = s.fcol

/-- The record-to-cache write (R76): slot `pixelHash px` becomes `px`, every other slot is as before. -/
def Recorded (s t : State) (px : Pixel) : Prop := ∀ i, t.slot i = if i = pixelHash px then px else s.slot i

/-- Fault entry (R124) from `s` to `t`: the fault record and STATUS are written, everything else is as before. FBYTE is
not constrained, so after a TruncatedStream it may hold any value (U7). -/
structure FaultEntered (s t : State) (cause : FaultCause) : Prop where
  fcause : t.fcause = cause
  frow : t.frow = s.row
  fcol : t.fcol = s.col
  status : t.status = .fault
  lastPix : t.lastPix = s.lastPix
  runLength : t.runLength = s.runLength
  table : t.table = s.table
  pc : t.pc = s.pc
  row : t.row = s.row
  col : t.col = s.col
  width : t.width = s.width
  height : t.height = s.height
  grid : t.grid = s.grid
  input : t.input = s.input

/-- R85 (a), (b), (f), and a Grid of at least WIDTH × HEIGHT cells (R144): what holds between steps of a decode. -/
structure BusyInv (s : State) : Prop where
  rowLt : s.row.toNat < s.height.toNat
  colLt : s.col.toNat < s.width.toNat
  gridFits : s.pixels ≤ s.grid.size
  written : ∀ k, (s.grid.read k).isSome = true ↔ k < s.linear
  last : if s.linear = 0 then s.lastPix = Pixel.start else s.grid.read (s.linear - 1) = some s.lastPix

/-- The block's invariant: R85 (c), (d), (e) and the Grid's canonical form in every state, the fault record as R20 and
R124 leave it, and `BusyInv` during a decode. -/
structure DecoderInv (s : State) : Prop where
  gridWf : s.grid.wf = true
  runLengthLe : s.runLength.toNat ≤ 61
  cursorLe : s.pc ≤ s.len
  tableOk : ∀ i, s.slot i = Pixel.zero ∨ pixelHash (s.slot i) = i
  noFault : s.status ≠ .fault → s.fcause = .none ∧ s.fbyte = 0 ∧ s.frow = 0 ∧ s.fcol = 0
  faulted : s.status = .fault → s.fcause = .truncatedStream ∧ s.frow = s.row ∧ s.fcol = s.col
  busy : s.status = .busy → BusyInv s

/-- `k` steps, stopping where no step is possible. -/
def run : Nat → State → Result
  | 0, s => .next s
  | k + 1, s =>
    match step s with
    | .next t => run k t
    | .fault r => .fault r
    | .refused r => .refused r

/-- A step is safe: it does not stop with a fault of the model's. -/
def Safe (s : State) : Prop := ∀ r, step s ≠ .fault r

end Sys2Proof.Machine
end

