-- ==== Sys2Proof/Certificates/Slice0/Obligations.lean ====
section
/-! DEFINITION. The statements for the provers. Each formalises the rule its docstring names; OBLIGATIONS.json lists
them with their quotations. -/

open Sys2Proof Sys2Proof.Machine

/-! ## Encoding and dispatch (`30_encoding.md`) -/

/-- The examples of R63's notation, and one word of each family, decode to the chunk they stand for. The DIFF word rests
on bit positions the spec marks as general knowledge (R56, G1; log entry 8). -/
def Obligations.NotationExamplesDecode : Prop :=
  decode [0x4B#8] = .ok (.diff 0 2 3, []) ∧
  decode [0xA1#8, 0x97#8] = .ok (.luma 33 9 7, []) ∧
  decode [0xFD#8] = .ok (.run 61, []) ∧
  decode [0x35#8] = .ok (.index 53, []) ∧
  decode [0xFE#8, 10#8, 20#8, 30#8] = .ok (.rgb 10 20 30, []) ∧
  decode [0xFF#8, 1#8, 2#8, 3#8, 0x80#8] = .ok (.rgba 1 2 3 128, [])

/-- R53 to R58: the format tables, bit by bit. Each chunk is read wherever its bytes stand at the head of the stream,
and the bytes after it are left. The bit positions of the DIFF clause are marked as general knowledge in the spec (R56,
G1; log entry 8). -/
def Obligations.FormatTablesDecode : Prop :=
  ∀ rest : List Byte,
    (∀ r g b : Byte, decode (0b11111110#8 :: r :: g :: b :: rest) = .ok (.rgb r g b, rest)) ∧
    (∀ r g b a : Byte, decode (0b11111111#8 :: r :: g :: b :: a :: rest) = .ok (.rgba r g b a, rest)) ∧
    (∀ i : BitVec 6, decode ((0b00#2 ++ i) :: rest) = .ok (.index i, rest)) ∧
    (∀ vr vg vb : BitVec 2, decode ((0b01#2 ++ vr ++ vg ++ vb) :: rest) = .ok (.diff vr vg vb, rest)) ∧
    (∀ (vg : BitVec 6) (vrg vbg : BitVec 4),
      decode ((0b10#2 ++ vg) :: (vrg ++ vbg) :: rest) = .ok (.luma vg vrg vbg, rest)) ∧
    (∀ vrun : BitVec 6, vrun.toNat ≤ 61 → decode ((0b11#2 ++ vrun) :: rest) = .ok (.run vrun, rest))

/-- Decoding the encoding of a well-formed chunk gives the chunk back, whatever follows it (R53 to R58): no operand bit
of any of the six formats is dropped. -/
def Obligations.DecodeOfEncodeIsIdentity : Prop :=
  ∀ (i : Instr) (rest : List Byte), i.wellFormed = true → decode (encode i ++ rest) = .ok (i, rest)

/-- The other direction: what decodes is a well-formed chunk, and the bytes read are exactly its encoding, so each byte
sequence has one meaning (R50, R51). -/
def Obligations.DecodedBytesAreTheEncoding : Prop :=
  ∀ (bytes rest : List Byte) (i : Instr),
    decode bytes = .ok (i, rest) → i.wellFormed = true ∧ encode i ++ rest = bytes

/-- R60: every one of the 256 tag values selects one of the six operations, and with enough bytes after it every
value of them decodes to a chunk of that operation. -/
def Obligations.EveryTagAndOperandIsLegal : Prop :=
  ∀ tag : Byte, ∃ op, classify tag = some op ∧
    ∀ rest : List Byte, op.length ≤ rest.length + 1 →
      ∃ i rest', decode (tag :: rest) = .ok (i, rest') ∧ i.op = op

/-- The map of the 256 tag values, by range, that results from R51; 0xFE and 0xFF are recognised before the
two-bit prefix (R152). -/
def Obligations.TagMapByRange : Prop :=
  ∀ tag : Byte,
    classify tag =
      if tag.toNat ≤ 0x3F then some .index
      else if tag.toNat ≤ 0x7F then some .diff
      else if tag.toNat ≤ 0xBF then some .luma
      else if tag.toNat ≤ 0xFD then some .run
      else if tag.toNat = 0xFE then some .rgb
      else some .rgba

/-- R52: the number of bytes a chunk takes from the stream, by its operation. -/
def Obligations.ChunkLengths : Prop :=
  ∀ (bytes rest : List Byte) (i : Instr), decode bytes = .ok (i, rest) →
    bytes.length = rest.length +
      match i.op with
      | .rgb => 4
      | .rgba => 5
      | .index => 1
      | .diff => 1
      | .luma => 2
      | .run => 1

/-! ## The arithmetic unit and the hash unit (`40_common_step.md`) -/

/-- R70: add8 and sub8 are addition and subtraction modulo 256, total on all bytes. -/
def Obligations.ArithmeticIsModulo256 : Prop :=
  ∀ x y : Byte,
    (add8 x y).toNat = (x.toNat + y.toNat) % 256 ∧ (sub8 x y).toNat = (x.toNat + 256 - y.toNat) % 256

/-- R71 (which the spec marks as derived from R70): applying a biased stored field; every grouping of the sum gives
the same byte, and it is the channel moved by the signed delta `v - B`, modulo 256. -/
def Obligations.BiasGroupingsAgree : Prop :=
  ∀ x v bias : Byte,
    applyBias x v bias = sub8 (add8 x v) bias ∧
    applyBias x v bias = add8 x (sub8 v bias) ∧
    (applyBias x v bias).toNat = (x.toNat + v.toNat + 256 - bias.toNat) % 256 ∧
    ((applyBias x v bias).toNat : Int) = ((x.toNat : Int) + ((v.toNat : Int) - (bias.toNat : Int))) % 256

/-- The laws R73 lists of the arithmetic unit (marked in the spec as derived from R70). -/
def Obligations.ArithmeticLaws : Prop :=
  (∀ x y : Byte, add8 x y = add8 y x) ∧
  (∀ x y z : Byte, add8 (add8 x y) z = add8 x (add8 y z)) ∧
  (∀ x : Byte, add8 x 0 = x) ∧
  (∀ x y : Byte, sub8 (add8 x y) y = x) ∧
  (∀ x y : Byte, add8 x (sub8 0 y) = sub8 x y) ∧
  (∀ (x : Byte) (n : Nat), 1 ≤ n → n ≤ 255 → add8 x (BitVec.ofNat 8 (256 - n)) = sub8 x (BitVec.ofNat 8 n))

/-- R74: the pixel hash, over the full channel values; `hash({0,0,0,0}) = 0`. -/
def Obligations.HashFormula : Prop :=
  (∀ p : Pixel, (pixelHash p).toNat = (p.r.toNat * 3 + p.g.toNat * 5 + p.b.toNat * 7 + p.a.toNat * 11) % 64) ∧
  pixelHash ⟨0, 0, 0, 0⟩ = 0

/-- R75 (which the spec marks as derived from R74): the hash is the same in any width of at least 6 bits: with every
product and the sum reduced modulo `2^k`, and with only the low 6 bits of every channel. -/
def Obligations.HashWidthIsIrrelevant : Prop :=
  ∀ (p : Pixel) (k : Nat), 6 ≤ k →
    (BitVec.ofNat k p.r.toNat * 3#k + BitVec.ofNat k p.g.toNat * 5#k + BitVec.ofNat k p.b.toNat * 7#k
        + BitVec.ofNat k p.a.toNat * 11#k).toNat % 64 = (pixelHash p).toNat ∧
    (3 * (p.r.toNat % 64) + 5 * (p.g.toNat % 64) + 7 * (p.b.toNat % 64) + 11 * (p.a.toNat % 64)) % 64 = (pixelHash p).toNat

/-- R77: of two recorded pixels with the same hash the later replaces the earlier, no other slot sees it, and nothing
reports the collision; and `2^26` pixels share each slot, that is, for every slot and every red, green and blue there are
exactly four alphas. -/
def Obligations.CollisionsOverwriteSilently : Prop :=
  (∀ (s : State) (p q : Pixel), pixelHash p = pixelHash q →
    ((s.recordToCache p).recordToCache q).slot (pixelHash p) = q ∧
    (∀ i, i ≠ pixelHash p → ((s.recordToCache p).recordToCache q).slot i = s.slot i) ∧
    ∃ table, (s.recordToCache p).recordToCache q = { s with table := table }) ∧
  (∀ (slot : BitVec 6) (r g b : Byte),
    ((List.range 256).filter fun a => decide (pixelHash ⟨r, g, b, BitVec.ofNat 8 a⟩ = slot)).length = 4)

/-! ## The stream and the Grid (`20_memory.md`) -/

/-- R31: MemRead gives the `n` bytes at offset `a` in order, where the stream holds them; otherwise it returns nothing
and the operation that asked raises TruncatedStream. -/
def Obligations.MemReadWholeOrTruncated : Prop :=
  ∀ (s : State) (a n : Nat), 1 ≤ n →
    (a + n ≤ s.input.length →
      ∃ bytes, s.memRead a n = some bytes ∧ bytes.length = n ∧ ∀ k, k < n → bytes[k]? = s.input[a + k]?) ∧
    (s.input.length < a + n → s.memRead a n = none) ∧
    (s.input.length < s.pc + n → ∀ body, ∃ t, s.withChunk n body = .next t ∧ FaultEntered s t .truncatedStream)

/-- MemWrite (R35) stores one whole pixel in cell `k` and nothing else; the index is exact in 64 bits, and at a position
of the image it is a cell of the image, so the write is always in bounds. -/
def Obligations.GridWriteIsOneCell : Prop :=
  (∀ (m : Memory) (k : Nat) (p : Pixel), k < m.size →
    ∃ m', m.write k p = some m' ∧ m'.size = m.size ∧ ∀ j, m'.read j = if j = k then some p else m.read j) ∧
  (∀ s : State, s.row.toNat < s.height.toNat → s.col.toNat < s.width.toNat →
    s.linear = (s.row.setWidth 64 * s.width.setWidth 64 + s.col.setWidth 64).toNat ∧
    s.linear < s.width.toNat * s.height.toNat)

/-! ## The six operations and the run continuation -/

/-- R90: RGB. With the chunk wholly in the stream and the position inside the Grid it completes with the literal red,
green and blue and the previous pixel's alpha, recorded in the table; with fewer than 4 bytes it takes TruncatedStream
and nothing is written. -/
def Obligations.RgbResult : Prop :=
  ∀ (r g b : Byte) (s : State),
    (s.pc + 4 ≤ s.input.length → s.linear < s.grid.size →
      ∃ t, exec (.rgb r g b) s = .next t ∧
        Emitted s t ⟨r, g, b, s.lastPix.a⟩ ∧ Recorded s t ⟨r, g, b, s.lastPix.a⟩ ∧
        t.pc = s.pc + 4 ∧ t.runLength = s.runLength ∧ t.freeCount = s.freeCount) ∧
    (s.input.length < s.pc + 4 →
      ∃ t, exec (.rgb r g b) s = .next t ∧ FaultEntered s t .truncatedStream)

/-- R91: RGBA. All four channels literal, recorded; TruncatedStream with fewer than 5 bytes. -/
def Obligations.RgbaResult : Prop :=
  ∀ (r g b a : Byte) (s : State),
    (s.pc + 5 ≤ s.input.length → s.linear < s.grid.size →
      ∃ t, exec (.rgba r g b a) s = .next t ∧
        Emitted s t ⟨r, g, b, a⟩ ∧ Recorded s t ⟨r, g, b, a⟩ ∧
        t.pc = s.pc + 5 ∧ t.runLength = s.runLength ∧ t.freeCount = s.freeCount) ∧
    (s.input.length < s.pc + 5 →
      ∃ t, exec (.rgba r g b a) s = .next t ∧ FaultEntered s t .truncatedStream)

/-- R95: INDEX. The pixel is the slot, verbatim, alpha included; no slot is written. -/
def Obligations.IndexResult : Prop :=
  ∀ (i : BitVec 6) (s : State),
    (s.pc + 1 ≤ s.input.length → s.linear < s.grid.size →
      ∃ t, exec (.index i) s = .next t ∧
        Emitted s t (s.slot i) ∧ t.table = s.table ∧
        t.pc = s.pc + 1 ∧ t.runLength = s.runLength ∧ t.freeCount = s.freeCount) ∧
    (s.input.length < s.pc + 1 →
      ∃ t, exec (.index i) s = .next t ∧ FaultEntered s t .truncatedStream)

/-- R100: DIFF, on the stored fields, whichever bits carry them. Each colour channel is `(last + stored - 2) mod 256`,
alpha is kept, the pixel is recorded. -/
def Obligations.DiffResult : Prop :=
  ∀ (vr vg vb : BitVec 2) (s : State),
    (s.pc + 1 ≤ s.input.length → s.linear < s.grid.size →
      ∃ t px, exec (.diff vr vg vb) s = .next t ∧
        px.r.toNat = (s.lastPix.r.toNat + vr.toNat + 256 - 2) % 256 ∧
        px.g.toNat = (s.lastPix.g.toNat + vg.toNat + 256 - 2) % 256 ∧
        px.b.toNat = (s.lastPix.b.toNat + vb.toNat + 256 - 2) % 256 ∧
        px.a = s.lastPix.a ∧
        Emitted s t px ∧ Recorded s t px ∧
        t.pc = s.pc + 1 ∧ t.runLength = s.runLength ∧ t.freeCount = s.freeCount) ∧
    (s.input.length < s.pc + 1 →
      ∃ t, exec (.diff vr vg vb) s = .next t ∧ FaultEntered s t .truncatedStream)

/-- R101: LUMA, in its closed form modulo 256; alpha is kept, the pixel is recorded; TruncatedStream where the tag is
the last byte. -/
def Obligations.LumaResult : Prop :=
  ∀ (vg : BitVec 6) (vrg vbg : BitVec 4) (s : State),
    (s.pc + 2 ≤ s.input.length → s.linear < s.grid.size →
      ∃ t px, exec (.luma vg vrg vbg) s = .next t ∧
        px.r.toNat = (s.lastPix.r.toNat + vg.toNat + vrg.toNat + 216) % 256 ∧
        px.g.toNat = (s.lastPix.g.toNat + vg.toNat + 224) % 256 ∧
        px.b.toNat = (s.lastPix.b.toNat + vg.toNat + vbg.toNat + 216) % 256 ∧
        px.a = s.lastPix.a ∧
        Emitted s t px ∧ Recorded s t px ∧
        t.pc = s.pc + 2 ∧ t.runLength = s.runLength ∧ t.freeCount = s.freeCount) ∧
    (s.input.length < s.pc + 2 →
      ∃ t, exec (.luma vg vrg vbg) s = .next t ∧ FaultEntered s t .truncatedStream)

/-- R110: RUN. The previous pixel once more, `run_length` becomes the stored value, no slot is written. -/
def Obligations.RunResult : Prop :=
  ∀ (vrun : BitVec 6) (s : State),
    (s.pc + 1 ≤ s.input.length → s.linear < s.grid.size →
      ∃ t, exec (.run vrun) s = .next t ∧
        Emitted s t s.lastPix ∧ t.table = s.table ∧
        t.pc = s.pc + 1 ∧ t.runLength = vrun ∧ t.freeCount = s.freeCount) ∧
    (s.input.length < s.pc + 1 →
      ∃ t, exec (.run vrun) s = .next t ∧ FaultEntered s t .truncatedStream)

/-- R112: the run continuation. With `run_length > 0` the step emits the previous pixel and takes one off `run_length`;
it reads no byte, so nothing is assumed of the stream. -/
def Obligations.RunContinuationResult : Prop :=
  ∀ s : State, s.status = .busy → 0 < s.runLength.toNat → s.linear < s.grid.size →
    ∃ t, step s = .next t ∧ Emitted s t s.lastPix ∧ t.table = s.table ∧ t.pc = s.pc ∧
      t.runLength.toNat = s.runLength.toNat - 1 ∧ t.freeCount = s.freeCount

/-- R76: RGB, RGBA, DIFF and LUMA record the pixel they produce in the slot of its hash and touch no other slot; INDEX,
RUN and the run continuation write no slot. -/
def Obligations.TableWriters : Prop :=
  (∀ (i : Instr) (s t : State), exec i s = .next t → s.pc + i.length ≤ s.input.length →
    match i.op with
    | .rgb => Recorded s t t.lastPix
    | .rgba => Recorded s t t.lastPix
    | .diff => Recorded s t t.lastPix
    | .luma => Recorded s t t.lastPix
    | .index => t.table = s.table
    | .run => t.table = s.table) ∧
  (∀ s t : State, 0 < s.runLength.toNat → step s = .next t → t.table = s.table)

/-- R149 (which the spec marks as derived): an INDEX right after a chunk that records, to the slot it recorded in,
reads the new pixel. -/
def Obligations.IndexAfterRecordReadsIt : Prop :=
  ∀ (i : Instr) (s t u : State), exec i s = .next t → s.pc + i.length ≤ s.input.length →
    i.op = .rgb ∨ i.op = .rgba ∨ i.op = .diff ∨ i.op = .luma →
    exec (.index (pixelHash t.lastPix)) t = .next u → t.pc + 1 ≤ t.input.length →
    u.lastPix = t.lastPix ∧ u.grid.read t.linear = some t.lastPix

/-- Only RGBA and INDEX can change alpha: every other step carries it on. -/
def Obligations.AlphaIsCarried : Prop :=
  (∀ (i : Instr) (s t : State), exec i s = .next t → i.op ≠ .rgba → i.op ≠ .index → t.lastPix.a = s.lastPix.a) ∧
  (∀ s t : State, 0 < s.runLength.toNat → step s = .next t → t.lastPix.a = s.lastPix.a)

/-! ## The step (`40_common_step.md`, `60_exceptions.md`) -/

/-- A step runs the decoded chunk: BUSY, no pending run, and the bytes at the cursor decode to `i`. -/
def Obligations.StepRunsDecodedChunk : Prop :=
  ∀ (s : State) (i : Instr) (rest : List Byte),
    s.status = .busy → s.runLength = 0 → decode (s.input.drop s.pc) = .ok (i, rest) → step s = exec i s

/-- No step is enabled unless STATUS is BUSY (R19, R78, R125). That the stop is a refusal of this name is the model's
choice (log entry 6). -/
def Obligations.NoStepUnlessBusy : Prop :=
  ∀ s : State, s.status ≠ .busy → step s = .refused (.noStepEnabled s.status)

/-- R124: fault entry, for both causes: what it records, and that nothing else changes. -/
def Obligations.FaultEntryRecord : Prop :=
  ∀ s : State,
    FaultEntered s (s.takeFault .truncatedStream) .truncatedStream ∧
    ∀ tag, FaultEntered s (s.takeFault (.unrecognizedTag tag)) .unrecognizedTag ∧
      (s.takeFault (.unrecognizedTag tag)).fbyte = tag

/-- R121: the exact cases of TruncatedStream, (a) to (d), each entering the fault of R124; in every other case, and in a
run continuation, the step takes no fault. -/
def Obligations.TruncationCases : Prop :=
  ∀ s : State, s.status = .busy → s.pc ≤ s.input.length → s.linear < s.grid.size →
    (0 < s.runLength.toNat → ∃ t, step s = .next t ∧ t.status ≠ .fault) ∧
    (s.runLength = 0 →
      (s.input[s.pc]? = none → ∃ t, step s = .next t ∧ FaultEntered s t .truncatedStream) ∧
      (∀ tag, s.input[s.pc]? = some tag →
        if (tag = 0xFE#8 ∧ s.input.length - s.pc ≤ 3) ∨ (tag = 0xFF#8 ∧ s.input.length - s.pc ≤ 4) ∨
            (0x80 ≤ tag.toNat ∧ tag.toNat ≤ 0xBF ∧ s.input.length - s.pc = 1)
        then ∃ t, step s = .next t ∧ FaultEntered s t .truncatedStream
        else ∃ t, step s = .next t ∧ t.status ≠ .fault))

/-- No byte reaches the last dispatch arm, so no step raises UnrecognizedTag (the derived fact R61 and
R122 name). -/
def Obligations.UnrecognizedTagIsNeverRaised : Prop :=
  (∀ (s : State) (tag : Byte), s.fetch ≠ .error (.unrecognizedTag tag)) ∧
  (∀ s t : State, step s = .next t → t.fcause = .unrecognizedTag → s.fcause = .unrecognizedTag)

/-- R81: the linear index of the position grows by exactly one in a step that takes no fault, and the position is that
index in row-major order. -/
def Obligations.LinearIndexAdvancesByOne : Prop :=
  ∀ s t : State, s.row.toNat < s.height.toNat → s.col.toNat < s.width.toNat →
    step s = .next t → t.status ≠ .fault →
    t.linear = s.linear + 1 ∧ t.row.toNat = t.linear / t.width.toNat ∧ t.col.toNat = t.linear % t.width.toNat

/-- A step makes STATUS DONE (R82) exactly when it wrote the last cell, and then the position is row HEIGHT, column 0. -/
def Obligations.DoneExactlyAtLastCell : Prop :=
  ∀ s t : State, s.row.toNat < s.height.toNat → s.col.toNat < s.width.toNat →
    step s = .next t → t.status ≠ .fault →
    (t.status = .done ↔ s.linear + 1 = s.width.toNat * s.height.toNat) ∧
    (t.status = .done → t.row = s.height ∧ t.col = 0)

/-- The transitions of R83's table (marked in the spec as derived) between AwaitingByte and InRun. -/
def Obligations.RunStateTransitions : Prop :=
  ∀ s t : State, step s = .next t →
    (0 < s.runLength.toNat → t.runLength.toNat = s.runLength.toNat - 1 ∧ t.pc = s.pc ∧ t.status ≠ .fault) ∧
    (s.runLength = 0 → t.status ≠ .fault →
      ∃ i, s.fetch = .ok i ∧ t.pc = s.pc + i.length ∧
        t.runLength = match i with
          | .rgb _ _ _ => 0
          | .rgba _ _ _ _ => 0
          | .index _ => 0
          | .diff _ _ _ => 0
          | .luma _ _ _ => 0
          | .run vrun => vrun)

/-- The cursor never decreases and never passes LEN, so a register of any width with `2^bits > LEN` holds it (R13, R14);
where no fault is taken it moves by the length of the chunk, and where one is taken it stays. -/
def Obligations.CursorStaysInStream : Prop :=
  ∀ s t : State, step s = .next t →
    s.pc ≤ t.pc ∧ (s.pc ≤ s.input.length → t.pc ≤ t.input.length) ∧
    (t.status = .fault → t.pc = s.pc) ∧
    ∀ bits : Nat, s.pc ≤ s.input.length → s.input.length < 2 ^ bits → (BitVec.ofNat bits t.pc).toNat = t.pc

/-- No step writes WIDTH, HEIGHT, the stream or the size of the Grid (R17, R25, R48, R147). -/
def Obligations.StepKeepsConfiguration : Prop :=
  ∀ s t : State, step s = .next t →
    t.width = s.width ∧ t.height = s.height ∧ t.input = s.input ∧ t.grid.size = s.grid.size

/-- The fault record is written only by fault entry (R20), and a step that does not enter a fault draws no free value. -/
def Obligations.FaultRecordOnlyByFaultEntry : Prop :=
  ∀ s t : State, step s = .next t → t.status ≠ .fault →
    t.fcause = s.fcause ∧ t.fbyte = s.fbyte ∧ t.frow = s.frow ∧ t.fcol = s.fcol ∧ t.freeCount = s.freeCount

/-! ## Invariants and whole decodes -/

/-- Every step keeps the invariant, from every state that meets it: R85 (a) to (f) during a decode, and in every state
the Grid's canonical form, `run_length` at most 61, the cursor in the stream, the table invariant and the fault record. -/
def Obligations.StepKeepsInvariant : Prop :=
  ∀ s t : State, DecoderInv s → step s = .next t → DecoderInv t

/-- The invariant holds at reset, and the host's moves keep it: reset, start and setting the dimensions. A start
establishes it from any state. Which moves go on is the model's choice in two cases, a larger Grid (log entry 17) and
the write of a 0 (log entry 23). -/
def Obligations.ResetAndHostMovesMeetInvariant : Prop :=
  DecoderInv State.reset ∧
  (∀ s, DecoderInv s → DecoderInv (hostReset s)) ∧
  (∀ maxPixels req s t, hostStart maxPixels req s = .next t → DecoderInv t) ∧
  (∀ w h s t, DecoderInv s → hostSetDimensions w h s = .next t → DecoderInv t)

/-- R85 (which the spec marks as derived), in the rule's own terms: between steps of a started decode, while STATUS is
BUSY, (a) to (f) hold. "Has been written" is said as "holds a value", the model's choice (log entry 9). -/
def Obligations.BetweenStepsOfADecode : Prop :=
  ∀ (maxPixels : Option Nat) (req : StartRequest) (s s0 t : State) (k : Nat),
    hostStart maxPixels req s = .next s0 → run k s0 = .next t → t.status = .busy →
    (if t.linear = 0 then t.lastPix = ⟨0, 0, 0, 255⟩ else t.grid.read (t.linear - 1) = some t.lastPix) ∧
    (∀ j, (t.grid.read j).isSome = true ↔ j < t.linear) ∧
    t.runLength.toNat ≤ 61 ∧
    t.pc ≤ t.input.length ∧
    (∀ i, t.slot i = ⟨0, 0, 0, 0⟩ ∨ pixelHash (t.slot i) = i) ∧
    t.col.toNat < t.width.toNat ∧ t.row.toNat < t.height.toNat

/-- No state that meets the invariant stops with a fault of the model's, and within a decode a step always moves: no byte
of the stream, whatever it is, leads to a stop (R62, which the spec marks as derived, and R127). -/
def Obligations.BusyStepAlwaysMoves : Prop :=
  ∀ s : State, DecoderInv s →
    Safe s ∧
    (s.status = .busy → ∃ t, step s = .next t ∧ (t.status = .busy ∨ t.status = .done ∨ t.status = .fault))

/-- R111 (which the spec marks as derived): a RUN with stored value `vrun` produces exactly `vrun + 1` pixels, all
equal to `last_pix`, before the next tag is read, where the grid has that many cells left; it writes no slot and no
other cell. -/
def Obligations.RunProducesItsCount : Prop :=
  ∀ (s : State) (vrun : BitVec 6), vrun.toNat ≤ 61 →
    s.status = .busy → s.runLength = 0 → s.input[s.pc]? = some (0b11#2 ++ vrun) →
    s.row.toNat < s.height.toNat → s.col.toNat < s.width.toNat → s.width.toNat * s.height.toNat ≤ s.grid.size →
    s.linear + (vrun.toNat + 1) ≤ s.width.toNat * s.height.toNat →
    ∃ t, run (vrun.toNat + 1) s = .next t ∧
      t.runLength = 0 ∧ t.pc = s.pc + 1 ∧ t.lastPix = s.lastPix ∧ t.table = s.table ∧
      t.linear = s.linear + (vrun.toNat + 1) ∧
      (∀ j, t.grid.read j =
        if s.linear ≤ j ∧ j < s.linear + (vrun.toNat + 1) then some s.lastPix else s.grid.read j) ∧
      (t.status = .done ↔ s.linear + (vrun.toNat + 1) = s.width.toNat * s.height.toNat) ∧ t.status ≠ .fault

/-- A pending run that outlasts the grid ends with it (R82, R110 corner case 5): the remaining cells are filled, STATUS
becomes DONE, the rest of the run is dropped, no byte is read and no fault is taken, whatever the stream holds. -/
def Obligations.OverlongRunEndsWithTheGrid : Prop :=
  ∀ (s : State) (n : Nat), s.status = .busy → s.row.toNat < s.height.toNat → s.col.toNat < s.width.toNat →
    s.width.toNat * s.height.toNat ≤ s.grid.size →
    s.linear + n = s.width.toNat * s.height.toNat → n ≤ s.runLength.toNat →
    ∃ t, run n s = .next t ∧ t.status = .done ∧ t.runLength.toNat = s.runLength.toNat - n ∧ t.pc = s.pc ∧
      ∀ j, t.grid.read j = if s.linear ≤ j ∧ j < s.linear + n then some s.lastPix else s.grid.read j

/-- R134 (which the spec marks as derived): every started decode reaches DONE or FAULT after at most WIDTH × HEIGHT
steps, a decode that does not fault after exactly WIDTH × HEIGHT (R82); in between STATUS is BUSY. -/
def Obligations.EveryDecodeEnds : Prop :=
  ∀ (maxPixels : Option Nat) (req : StartRequest) (s s0 : State), hostStart maxPixels req s = .next s0 →
    ∃ k t, run k s0 = .next t ∧ k ≤ req.width.toNat * req.height.toNat ∧
      ((t.status = .done ∧ k = req.width.toNat * req.height.toNat) ∨ t.status = .fault) ∧
      ∀ j u, j < k → run j s0 = .next u → u.status = .busy

/-- R36 (which the spec marks as derived): the cells are written in strictly increasing order, each once: after `j`
steps without a fault the position is cell `j` and the cell before it holds the pixel just produced; the cells that hold
a value are always those before the position, and no later step changes one of them. At DONE every cell of the image has
been written. That a cell holds a value only once the decode has written it is the model's choice (log entry 9). -/
def Obligations.CellsAreWrittenOnceInOrder : Prop :=
  ∀ (maxPixels : Option Nat) (req : StartRequest) (s s0 t u : State) (j k : Nat),
    hostStart maxPixels req s = .next s0 → run j s0 = .next t → run k t = .next u →
    (t.status ≠ .fault → t.linear = j ∧ (0 < j → t.grid.read (j - 1) = some t.lastPix)) ∧
    (∀ i, (t.grid.read i).isSome = true ↔ i < t.linear) ∧
    (∀ i, i < t.linear → u.grid.read i = t.grid.read i) ∧
    (t.status = .done → ∀ i, i < req.width.toNat * req.height.toNat → ∃ px, hostReadCell i t = .ok (some px))

/-- From R34 (which the spec marks as derived): the bytes at or after the final `pc` do not affect the result. A decode
that reached DONE reaches the same state with any bytes appended to the stream, and with any other stream, longer or
shorter, whose bytes before the final `pc` are the same. -/
def Obligations.TrailingBytesDoNotMatter : Prop :=
  ∀ (k : Nat) (s t : State), run k s = .next t → t.status = .done →
    (∀ extra, run k { s with input := s.input ++ extra } = .next { t with input := t.input ++ extra }) ∧
    ∀ other : List Byte, other.take t.pc = s.input.take t.pc →
      run k { s with input := other } = .next { t with input := other }

/-- R7: two decodes of the same dimensions and stream give the same grid or the same fault, whatever the states they
were started from: nothing survives from an earlier decode. -/
def Obligations.SameDecodeSameOutcome : Prop :=
  ∀ (maxPixels : Option Nat) (req : StartRequest) (s1 s2 t1 t2 u1 : State) (k : Nat),
    hostStart maxPixels req s1 = .next t1 → hostStart maxPixels req s2 = .next t2 → run k t1 = .next u1 →
    ∃ u2, run k t2 = .next u2 ∧ observe u2 = observe u1

/-! ## Reset, start and the host (`70_reset_and_hazards.md`, `10_state.md`) -/

/-- The values R140 and `10_state.md` §9 give for reset, at `State.reset`. -/
def Obligations.ResetValues : Prop :=
  State.reset.lastPix = ⟨0, 0, 0, 255⟩ ∧ State.reset.runLength = 0 ∧ (∀ i, State.reset.slot i = ⟨0, 0, 0, 0⟩) ∧
  State.reset.pc = 0 ∧ State.reset.row = 0 ∧ State.reset.col = 0 ∧ State.reset.status = .idle ∧
  State.reset.fcause = .none ∧ State.reset.fbyte = 0 ∧ State.reset.frow = 0 ∧ State.reset.fcol = 0

/-- R140: hardware reset, in any state: the decode-start values with STATUS IDLE; G, IN, WIDTH and HEIGHT are kept. -/
def Obligations.HardwareReset : Prop :=
  ∀ s : State,
    (hostReset s).lastPix = ⟨0, 0, 0, 255⟩ ∧ (hostReset s).runLength = 0 ∧ (∀ i, (hostReset s).slot i = ⟨0, 0, 0, 0⟩) ∧
    (hostReset s).pc = 0 ∧ (hostReset s).row = 0 ∧ (hostReset s).col = 0 ∧ (hostReset s).status = .idle ∧
    (hostReset s).fcause = .none ∧ (hostReset s).fbyte = 0 ∧ (hostReset s).frow = 0 ∧ (hostReset s).fcol = 0 ∧
    (hostReset s).grid = s.grid ∧ (hostReset s).input = s.input ∧
    (hostReset s).width = s.width ∧ (hostReset s).height = s.height

/-- R141: start, from IDLE, DONE or FAULT, with both dimensions greater than 0 and a Grid that holds the image: the
decode-start state with STATUS BUSY, whatever the state was. R144 asks for a Grid of exactly WIDTH × HEIGHT cells; that
a larger one is accepted too is the model's choice (log entry 17), and so is MAX_PIXELS as an argument, which the image
must fit where there is one (log entry 13). -/
def Obligations.StartEstablishesDecodeStart : Prop :=
  ∀ (maxPixels : Option Nat) (req : StartRequest) (s : State),
    s.status ≠ .busy → 0 < req.width.toNat → 0 < req.height.toNat →
    req.width.toNat * req.height.toNat ≤ req.gridCells →
    (∀ n, maxPixels = some n → req.width.toNat * req.height.toNat ≤ n) →
    ∃ t, hostStart maxPixels req s = .next t ∧
      t.lastPix = ⟨0, 0, 0, 255⟩ ∧ t.runLength = 0 ∧ (∀ i, t.slot i = ⟨0, 0, 0, 0⟩) ∧
      t.pc = 0 ∧ t.row = 0 ∧ t.col = 0 ∧
      t.fcause = .none ∧ t.fbyte = 0 ∧ t.frow = 0 ∧ t.fcol = 0 ∧ t.status = .busy ∧
      t.width = req.width ∧ t.height = req.height ∧ t.input = req.input ∧ t.grid.size = req.gridCells

/-- The starts R146 leaves without meaning are refused. The refusals' names, and the order they are tested in, are the
model's choice (log entry 16). -/
def Obligations.MeaninglessStartsAreRefused : Prop :=
  ∀ (maxPixels : Option Nat) (req : StartRequest) (s : State),
    s.status = .busy ∨ req.width = 0 ∨ req.height = 0 ∨ req.gridCells < req.width.toNat * req.height.toNat →
    ∃ why, hostStart maxPixels req s = .refused why ∧
      (why = .startWhileBusy ∨ why = .zeroDimension ∨ why = .gridTooSmall)

/-- The host writes WIDTH and HEIGHT while STATUS is not BUSY, and nothing else with them (`10_state.md` §5); while BUSY
the move is refused, under a name of the model's choice (log entry 16). That a 0, which lies outside the registers'
range, is written like any other value is the model's choice too (log entry 23). -/
def Obligations.DimensionsOnlyWhileNotBusy : Prop :=
  ∀ (w h : Word) (s : State),
    (s.status ≠ .busy → hostSetDimensions w h s = .next { s with width := w, height := h }) ∧
    (s.status = .busy → hostSetDimensions w h s = .refused .dimensionsWhileBusy)

/-- The Grid is an output only at DONE (R38, R126, R154): a cell is read then and only then, and what the host observes
is a grid or a fault, never both. R133 gives the host the cells below WIDTH × HEIGHT only; that a read at or beyond that
index is answered too is the model's choice (log entry 24). -/
def Obligations.GridIsReadOnlyAtDone : Prop :=
  ∀ s : State,
    (∀ k, s.status = .done → hostReadCell k s = .ok (s.grid.read k)) ∧
    (∀ k v, hostReadCell k s = .ok v → s.status = .done) ∧
    (s.status = .done → observe s = .done s.grid) ∧
    (s.status = .fault → observe s = .fault (hostReadFaultRecord s)) ∧
    (∀ g, observe s = .done g → s.status = .done) ∧
    (∀ r, observe s = .fault r → s.status = .fault)

/-- The codes of STATUS (R19) and FCAUSE (R20), and what the host reads of the fault record: FBYTE except where
FCAUSE is 1, after which it is unspecified (R124, U7); that it is not exposed then is the model's choice (log entry 1). -/
def Obligations.CodesTheHostReads : Prop :=
  ∀ s : State,
    (hostReadStatus s).toNat = (match s.status with | .idle => 0 | .busy => 1 | .done => 2 | .fault => 3) ∧
    (hostReadFaultRecord s).cause.toNat =
      (match s.fcause with | .none => 0 | .truncatedStream => 1 | .unrecognizedTag => 2) ∧
    (hostReadFaultRecord s).row = s.frow ∧ (hostReadFaultRecord s).col = s.fcol ∧
    (hostReadFaultRecord s).byte = if s.fcause = .truncatedStream then none else some s.fbyte

/-- The bus form of a Pixel (R41, D12): r in bits 31:24, g in 23:16, b in 15:8, a in 7:0, and back. -/
def Obligations.PixelBusForm : Prop :=
  ∀ p : Pixel,
    (packPixel p).toNat = p.r.toNat * 2 ^ 24 + p.g.toNat * 2 ^ 16 + p.b.toNat * 2 ^ 8 + p.a.toNat ∧
    unpackPixel (packPixel p) = p
end

