-- ==== Sys2Proof/Laws/Memory.lean ====
section
/-! SUPPORT. The Grid: reading after writing, the canonical form, and that equal contents are equal data. -/

namespace Sys2Proof.Machine

theorem lookup_cons_ite (x : Nat × Pixel) (l : List (Nat × Pixel)) (j : Nat) :
    (x :: l).lookup j = if j = x.1 then some x.2 else l.lookup j := by
  obtain ⟨i, q⟩ := x
  rw [List.lookup_cons]
  by_cases h : j = i
  · simp [h]
  · rw [beq_false_of_ne h, if_neg h]

theorem lookup_insertCell (k : Nat) (p : Pixel) (l : List (Nat × Pixel)) (j : Nat) :
    (insertCell k p l).lookup j = if j = k then some p else l.lookup j := by
  induction l with
  | nil => exact lookup_cons_ite (k, p) [] j
  | cons x rest ih =>
    obtain ⟨i, q⟩ := x
    simp only [insertCell]
    split
    · exact lookup_cons_ite (k, p) _ j
    · split
      · next h =>
        subst h
        simp only [lookup_cons_ite]
        split <;> rfl
      · next h =>
        simp only [lookup_cons_ite, ih]
        by_cases hj : j = i
        · rw [if_pos hj, if_neg (by omega), if_pos hj]
        · rw [if_neg hj, if_neg hj]

/-- Every index of an insertion is the new one or an old one. -/
theorem mem_insertCell {k : Nat} {p : Pixel} {l : List (Nat × Pixel)} {x : Nat × Pixel} (h : x ∈ insertCell k p l) :
    x = (k, p) ∨ x ∈ l := by
  induction l with
  | nil => simpa [insertCell] using h
  | cons y rest ih =>
    obtain ⟨i, q⟩ := y
    simp only [insertCell] at h
    split at h
    · simpa using h
    · split at h
      · simp only [List.mem_cons] at h ⊢
        tauto
      · simp only [List.mem_cons] at h ⊢
        tauto

theorem insertCell_rising (k : Nat) (p : Pixel) (l : List (Nat × Pixel)) (h : l.Pairwise fun x y => x.1 < y.1) :
    (insertCell k p l).Pairwise fun x y => x.1 < y.1 := by
  induction l with
  | nil => simp [insertCell]
  | cons y rest ih =>
    obtain ⟨i, q⟩ := y
    have ht := List.pairwise_cons.mp h
    simp only [insertCell]
    split
    · next hk =>
      refine List.pairwise_cons.mpr ⟨fun x hx => ?_, h⟩
      rcases List.mem_cons.mp hx with rfl | hx
      · exact hk
      · exact Nat.lt_trans hk (ht.1 x hx)
    · split
      · next hk =>
        subst hk
        exact List.pairwise_cons.mpr ⟨ht.1, ht.2⟩
      · refine List.pairwise_cons.mpr ⟨fun x hx => ?_, ih ht.2⟩
        rcases mem_insertCell hx with rfl | hx
        · show i < k
          omega
        · exact ht.1 x hx

theorem Memory.wf_iff (m : Memory) :
    m.wf = true ↔ (m.cells.Pairwise fun x y => x.1 < y.1) ∧ ∀ x ∈ m.cells, x.1 < m.size := by
  simp [Memory.wf]

theorem Memory.blank_wf (n : Nat) : (Memory.blank n).wf = true := rfl

@[simp] theorem Memory.read_blank (n k : Nat) : (Memory.blank n).read k = none := rfl

/-- Everything a write can do: it answers exactly inside the Grid, and then it changes that cell alone. -/
theorem Memory.write_spec {m m' : Memory} {k : Nat} {p : Pixel} (h : m.write k p = some m') :
    k < m.size ∧ m'.size = m.size ∧ ∀ j, m'.read j = if j = k then some p else m.read j := by
  unfold Memory.write at h
  split at h
  · next hk =>
    cases h
    exact ⟨hk, rfl, fun j => lookup_insertCell k p m.cells j⟩
  · cases h

theorem Memory.write_some {m : Memory} {k : Nat} (p : Pixel) (h : k < m.size) : ∃ m', m.write k p = some m' :=
  ⟨_, if_pos h⟩

theorem Memory.write_wf {m m' : Memory} {k : Nat} {p : Pixel} (h : m.write k p = some m') (hm : m.wf = true) :
    m'.wf = true := by
  unfold Memory.write at h
  split at h
  · next hk =>
    cases h
    rw [Memory.wf_iff] at hm ⊢
    refine ⟨insertCell_rising k p _ hm.1, fun x hx => ?_⟩
    rcases mem_insertCell hx with rfl | hx
    · exact hk
    · exact hm.2 x hx
  · cases h

theorem lookup_eq_none_of_lt {l : List (Nat × Pixel)} {k : Nat} (h : ∀ x ∈ l, k < x.1) : l.lookup k = none := by
  induction l with
  | nil => rfl
  | cons x rest ih =>
    have hx : k ≠ x.1 := Nat.ne_of_lt (h x (by simp))
    rw [lookup_cons_ite, if_neg hx]
    exact ih fun y hy => h y (by simp [hy])

theorem rising_ext {l l' : List (Nat × Pixel)} (h : l.Pairwise fun x y => x.1 < y.1)
    (h' : l'.Pairwise fun x y => x.1 < y.1) (hr : ∀ k, l.lookup k = l'.lookup k) : l = l' := by
  induction l generalizing l' with
  | nil =>
    cases l' with
    | nil => rfl
    | cons y l' => simpa [lookup_cons_ite] using hr y.1
  | cons x l ih =>
    cases l' with
    | nil => simpa [lookup_cons_ite] using hr x.1
    | cons y l' =>
      obtain ⟨hx, hl⟩ := List.pairwise_cons.mp h
      obtain ⟨hy, hl'⟩ := List.pairwise_cons.mp h'
      have hkey : x.1 = y.1 := by
        by_contra hne
        rcases Nat.lt_or_gt_of_ne hne with hlt | hgt
        · have hn := hr x.1
          rw [lookup_cons_ite, lookup_cons_ite, if_pos rfl, if_neg hne,
            lookup_eq_none_of_lt fun z hz => Nat.lt_trans hlt (hy z hz)] at hn
          cases hn
        · have hn := hr y.1
          rw [lookup_cons_ite, lookup_cons_ite, if_pos rfl, if_neg (Ne.symm hne),
            lookup_eq_none_of_lt fun z hz => Nat.lt_trans hgt (hx z hz)] at hn
          cases hn
      have hval : x.2 = y.2 := by
        have hn := hr x.1
        rw [lookup_cons_ite, lookup_cons_ite, if_pos rfl, if_pos hkey] at hn
        exact Option.some.inj hn
      have hxy : x = y := Prod.ext hkey hval
      subst hxy
      refine congrArg _ (ih hl hl' fun k => ?_)
      by_cases hk : k = x.1
      · subst hk
        rw [lookup_eq_none_of_lt hx, lookup_eq_none_of_lt hy]
      · have hn := hr k
        rwa [lookup_cons_ite, lookup_cons_ite, if_neg hk, if_neg hk] at hn

/-- Equal contents are equal data: two Grids in canonical form that read alike are one. -/
theorem Memory.ext_of_read {m m' : Memory} (h : m.wf = true) (h' : m'.wf = true) (hs : m.size = m'.size)
    (hr : ∀ k, m.read k = m'.read k) : m = m' := by
  cases m
  cases m'
  rw [Memory.wf_iff] at h h'
  simp only [Memory.mk.injEq]
  exact ⟨hs, rising_ext h.1 h'.1 hr⟩

end Sys2Proof.Machine
end

