-- ==== Sys2Proof/Laws/State.lean ====
section
/-! SUPPORT. What each update of the state does to each field, so that no proof unfolds a record update. -/

namespace Sys2Proof.Machine

@[simp] theorem State.advanceCursor_lastPix (s : State) (n : Nat) : (s.advanceCursor n).lastPix = s.lastPix := rfl
@[simp] theorem State.advanceCursor_runLength (s : State) (n : Nat) : (s.advanceCursor n).runLength = s.runLength := rfl
@[simp] theorem State.advanceCursor_table (s : State) (n : Nat) : (s.advanceCursor n).table = s.table := rfl
@[simp] theorem State.advanceCursor_pc (s : State) (n : Nat) : (s.advanceCursor n).pc = s.pc + n := rfl
@[simp] theorem State.advanceCursor_row (s : State) (n : Nat) : (s.advanceCursor n).row = s.row := rfl
@[simp] theorem State.advanceCursor_col (s : State) (n : Nat) : (s.advanceCursor n).col = s.col := rfl
@[simp] theorem State.advanceCursor_width (s : State) (n : Nat) : (s.advanceCursor n).width = s.width := rfl
@[simp] theorem State.advanceCursor_height (s : State) (n : Nat) : (s.advanceCursor n).height = s.height := rfl
@[simp] theorem State.advanceCursor_status (s : State) (n : Nat) : (s.advanceCursor n).status = s.status := rfl
@[simp] theorem State.advanceCursor_fcause (s : State) (n : Nat) : (s.advanceCursor n).fcause = s.fcause := rfl
@[simp] theorem State.advanceCursor_fbyte (s : State) (n : Nat) : (s.advanceCursor n).fbyte = s.fbyte := rfl
@[simp] theorem State.advanceCursor_frow (s : State) (n : Nat) : (s.advanceCursor n).frow = s.frow := rfl
@[simp] theorem State.advanceCursor_fcol (s : State) (n : Nat) : (s.advanceCursor n).fcol = s.fcol := rfl
@[simp] theorem State.advanceCursor_grid (s : State) (n : Nat) : (s.advanceCursor n).grid = s.grid := rfl
@[simp] theorem State.advanceCursor_input (s : State) (n : Nat) : (s.advanceCursor n).input = s.input := rfl
@[simp] theorem State.advanceCursor_freeCount (s : State) (n : Nat) : (s.advanceCursor n).freeCount = s.freeCount := rfl

@[simp] theorem State.setSlot_lastPix (s : State) (i : BitVec 6) (p : Pixel) : (s.setSlot i p).lastPix = s.lastPix := rfl
@[simp] theorem State.setSlot_runLength (s : State) (i : BitVec 6) (p : Pixel) : (s.setSlot i p).runLength = s.runLength := rfl
@[simp] theorem State.setSlot_table (s : State) (i : BitVec 6) (p : Pixel) : (s.setSlot i p).table = s.table.set i.toNat p (slot_lt i) := rfl
@[simp] theorem State.setSlot_pc (s : State) (i : BitVec 6) (p : Pixel) : (s.setSlot i p).pc = s.pc := rfl
@[simp] theorem State.setSlot_row (s : State) (i : BitVec 6) (p : Pixel) : (s.setSlot i p).row = s.row := rfl
@[simp] theorem State.setSlot_col (s : State) (i : BitVec 6) (p : Pixel) : (s.setSlot i p).col = s.col := rfl
@[simp] theorem State.setSlot_width (s : State) (i : BitVec 6) (p : Pixel) : (s.setSlot i p).width = s.width := rfl
@[simp] theorem State.setSlot_height (s : State) (i : BitVec 6) (p : Pixel) : (s.setSlot i p).height = s.height := rfl
@[simp] theorem State.setSlot_status (s : State) (i : BitVec 6) (p : Pixel) : (s.setSlot i p).status = s.status := rfl
@[simp] theorem State.setSlot_fcause (s : State) (i : BitVec 6) (p : Pixel) : (s.setSlot i p).fcause = s.fcause := rfl
@[simp] theorem State.setSlot_fbyte (s : State) (i : BitVec 6) (p : Pixel) : (s.setSlot i p).fbyte = s.fbyte := rfl
@[simp] theorem State.setSlot_frow (s : State) (i : BitVec 6) (p : Pixel) : (s.setSlot i p).frow = s.frow := rfl
@[simp] theorem State.setSlot_fcol (s : State) (i : BitVec 6) (p : Pixel) : (s.setSlot i p).fcol = s.fcol := rfl
@[simp] theorem State.setSlot_grid (s : State) (i : BitVec 6) (p : Pixel) : (s.setSlot i p).grid = s.grid := rfl
@[simp] theorem State.setSlot_input (s : State) (i : BitVec 6) (p : Pixel) : (s.setSlot i p).input = s.input := rfl
@[simp] theorem State.setSlot_freeCount (s : State) (i : BitVec 6) (p : Pixel) : (s.setSlot i p).freeCount = s.freeCount := rfl

@[simp] theorem State.recordToCache_lastPix (s : State) (p : Pixel) : (s.recordToCache p).lastPix = s.lastPix := rfl
@[simp] theorem State.recordToCache_runLength (s : State) (p : Pixel) : (s.recordToCache p).runLength = s.runLength := rfl
@[simp] theorem State.recordToCache_table (s : State) (p : Pixel) : (s.recordToCache p).table = s.table.set (pixelHash p).toNat p (slot_lt (pixelHash p)) := rfl
@[simp] theorem State.recordToCache_pc (s : State) (p : Pixel) : (s.recordToCache p).pc = s.pc := rfl
@[simp] theorem State.recordToCache_row (s : State) (p : Pixel) : (s.recordToCache p).row = s.row := rfl
@[simp] theorem State.recordToCache_col (s : State) (p : Pixel) : (s.recordToCache p).col = s.col := rfl
@[simp] theorem State.recordToCache_width (s : State) (p : Pixel) : (s.recordToCache p).width = s.width := rfl
@[simp] theorem State.recordToCache_height (s : State) (p : Pixel) : (s.recordToCache p).height = s.height := rfl
@[simp] theorem State.recordToCache_status (s : State) (p : Pixel) : (s.recordToCache p).status = s.status := rfl
@[simp] theorem State.recordToCache_fcause (s : State) (p : Pixel) : (s.recordToCache p).fcause = s.fcause := rfl
@[simp] theorem State.recordToCache_fbyte (s : State) (p : Pixel) : (s.recordToCache p).fbyte = s.fbyte := rfl
@[simp] theorem State.recordToCache_frow (s : State) (p : Pixel) : (s.recordToCache p).frow = s.frow := rfl
@[simp] theorem State.recordToCache_fcol (s : State) (p : Pixel) : (s.recordToCache p).fcol = s.fcol := rfl
@[simp] theorem State.recordToCache_grid (s : State) (p : Pixel) : (s.recordToCache p).grid = s.grid := rfl
@[simp] theorem State.recordToCache_input (s : State) (p : Pixel) : (s.recordToCache p).input = s.input := rfl
@[simp] theorem State.recordToCache_freeCount (s : State) (p : Pixel) : (s.recordToCache p).freeCount = s.freeCount := rfl

@[simp] theorem State.advancePosition_lastPix (s : State) : (s.advancePosition).lastPix = s.lastPix := by
  unfold State.advancePosition; split <;> rfl
@[simp] theorem State.advancePosition_runLength (s : State) : (s.advancePosition).runLength = s.runLength := by
  unfold State.advancePosition; split <;> rfl
@[simp] theorem State.advancePosition_table (s : State) : (s.advancePosition).table = s.table := by
  unfold State.advancePosition; split <;> rfl
@[simp] theorem State.advancePosition_pc (s : State) : (s.advancePosition).pc = s.pc := by
  unfold State.advancePosition; split <;> rfl
@[simp] theorem State.advancePosition_row (s : State) : (s.advancePosition).row = if s.col + 1 = s.width then s.row + 1 else s.row := by
  unfold State.advancePosition; split <;> rfl
@[simp] theorem State.advancePosition_col (s : State) : (s.advancePosition).col = if s.col + 1 = s.width then 0 else s.col + 1 := by
  unfold State.advancePosition; split <;> rfl
@[simp] theorem State.advancePosition_width (s : State) : (s.advancePosition).width = s.width := by
  unfold State.advancePosition; split <;> rfl
@[simp] theorem State.advancePosition_height (s : State) : (s.advancePosition).height = s.height := by
  unfold State.advancePosition; split <;> rfl
@[simp] theorem State.advancePosition_status (s : State) : (s.advancePosition).status = s.status := by
  unfold State.advancePosition; split <;> rfl
@[simp] theorem State.advancePosition_fcause (s : State) : (s.advancePosition).fcause = s.fcause := by
  unfold State.advancePosition; split <;> rfl
@[simp] theorem State.advancePosition_fbyte (s : State) : (s.advancePosition).fbyte = s.fbyte := by
  unfold State.advancePosition; split <;> rfl
@[simp] theorem State.advancePosition_frow (s : State) : (s.advancePosition).frow = s.frow := by
  unfold State.advancePosition; split <;> rfl
@[simp] theorem State.advancePosition_fcol (s : State) : (s.advancePosition).fcol = s.fcol := by
  unfold State.advancePosition; split <;> rfl
@[simp] theorem State.advancePosition_grid (s : State) : (s.advancePosition).grid = s.grid := by
  unfold State.advancePosition; split <;> rfl
@[simp] theorem State.advancePosition_input (s : State) : (s.advancePosition).input = s.input := by
  unfold State.advancePosition; split <;> rfl
@[simp] theorem State.advancePosition_freeCount (s : State) : (s.advancePosition).freeCount = s.freeCount := by
  unfold State.advancePosition; split <;> rfl

@[simp] theorem State.terminate_lastPix (s : State) : (s.terminate).lastPix = s.lastPix := by
  unfold State.terminate; split <;> rfl
@[simp] theorem State.terminate_runLength (s : State) : (s.terminate).runLength = s.runLength := by
  unfold State.terminate; split <;> rfl
@[simp] theorem State.terminate_table (s : State) : (s.terminate).table = s.table := by
  unfold State.terminate; split <;> rfl
@[simp] theorem State.terminate_pc (s : State) : (s.terminate).pc = s.pc := by
  unfold State.terminate; split <;> rfl
@[simp] theorem State.terminate_row (s : State) : (s.terminate).row = s.row := by
  unfold State.terminate; split <;> rfl
@[simp] theorem State.terminate_col (s : State) : (s.terminate).col = s.col := by
  unfold State.terminate; split <;> rfl
@[simp] theorem State.terminate_width (s : State) : (s.terminate).width = s.width := by
  unfold State.terminate; split <;> rfl
@[simp] theorem State.terminate_height (s : State) : (s.terminate).height = s.height := by
  unfold State.terminate; split <;> rfl
@[simp] theorem State.terminate_status (s : State) : (s.terminate).status = if s.row = s.height then .done else s.status := by
  unfold State.terminate; split <;> rfl
@[simp] theorem State.terminate_fcause (s : State) : (s.terminate).fcause = s.fcause := by
  unfold State.terminate; split <;> rfl
@[simp] theorem State.terminate_fbyte (s : State) : (s.terminate).fbyte = s.fbyte := by
  unfold State.terminate; split <;> rfl
@[simp] theorem State.terminate_frow (s : State) : (s.terminate).frow = s.frow := by
  unfold State.terminate; split <;> rfl
@[simp] theorem State.terminate_fcol (s : State) : (s.terminate).fcol = s.fcol := by
  unfold State.terminate; split <;> rfl
@[simp] theorem State.terminate_grid (s : State) : (s.terminate).grid = s.grid := by
  unfold State.terminate; split <;> rfl
@[simp] theorem State.terminate_input (s : State) : (s.terminate).input = s.input := by
  unfold State.terminate; split <;> rfl
@[simp] theorem State.terminate_freeCount (s : State) : (s.terminate).freeCount = s.freeCount := by
  unfold State.terminate; split <;> rfl

@[simp] theorem State.takeFault_lastPix (s : State) (e : Raised) : (s.takeFault e).lastPix = s.lastPix := by cases e <;> rfl
@[simp] theorem State.takeFault_runLength (s : State) (e : Raised) : (s.takeFault e).runLength = s.runLength := by cases e <;> rfl
@[simp] theorem State.takeFault_table (s : State) (e : Raised) : (s.takeFault e).table = s.table := by cases e <;> rfl
@[simp] theorem State.takeFault_pc (s : State) (e : Raised) : (s.takeFault e).pc = s.pc := by cases e <;> rfl
@[simp] theorem State.takeFault_row (s : State) (e : Raised) : (s.takeFault e).row = s.row := by cases e <;> rfl
@[simp] theorem State.takeFault_col (s : State) (e : Raised) : (s.takeFault e).col = s.col := by cases e <;> rfl
@[simp] theorem State.takeFault_width (s : State) (e : Raised) : (s.takeFault e).width = s.width := by cases e <;> rfl
@[simp] theorem State.takeFault_height (s : State) (e : Raised) : (s.takeFault e).height = s.height := by cases e <;> rfl
@[simp] theorem State.takeFault_status (s : State) (e : Raised) : (s.takeFault e).status = .fault := by cases e <;> rfl
@[simp] theorem State.takeFault_frow (s : State) (e : Raised) : (s.takeFault e).frow = s.row := by cases e <;> rfl
@[simp] theorem State.takeFault_fcol (s : State) (e : Raised) : (s.takeFault e).fcol = s.col := by cases e <;> rfl
@[simp] theorem State.takeFault_grid (s : State) (e : Raised) : (s.takeFault e).grid = s.grid := by cases e <;> rfl
@[simp] theorem State.takeFault_input (s : State) (e : Raised) : (s.takeFault e).input = s.input := by cases e <;> rfl
@[simp] theorem State.takeFault_truncated_fcause (s : State) : (s.takeFault .truncatedStream).fcause = .truncatedStream := rfl
@[simp] theorem State.takeFault_unrecognized_fcause (s : State) (tag : Byte) :
    (s.takeFault (.unrecognizedTag tag)).fcause = .unrecognizedTag := rfl
@[simp] theorem State.takeFault_unrecognized_fbyte (s : State) (tag : Byte) :
    (s.takeFault (.unrecognizedTag tag)).fbyte = tag := rfl

end Sys2Proof.Machine
end

