-- ==== Sys2Proof/Laws/Ops.lean ====
section
/-! SUPPORT. One lemma per shared operation: everything it can do. Later proofs cite these and do not unfold. -/

namespace Sys2Proof.Machine

/-! The History Table -/

theorem State.slot_setSlot (s : State) (i j : BitVec 6) (p : Pixel) :
    (s.setSlot i p).slot j = if j = i then p else s.slot j := by
  unfold State.slot State.setSlot
  rw [Vector.getElem_set]
  by_cases h : j = i
  · simp [h]
  · have hn : i.toNat ≠ j.toNat := fun hn => h (BitVec.eq_of_toNat_eq hn.symm)
    simp [h, hn]

theorem State.slot_recordToCache (s : State) (p : Pixel) (j : BitVec 6) :
    (s.recordToCache p).slot j = if j = pixelHash p then p else s.slot j :=
  s.slot_setSlot (pixelHash p) j p

theorem State.slot_congr {s t : State} (h : t.table = s.table) (i : BitVec 6) : t.slot i = s.slot i := by
  simp only [State.slot, h]

theorem slot_replicate (s : State) (p : Pixel) (h : s.table = Vector.replicate 64 p) (i : BitVec 6) : s.slot i = p := by
  simp [State.slot, h]

/-! The stream -/

theorem State.memRead_some {s : State} {a n : Nat} (h : a + n ≤ s.len) :
    s.memRead a n = some ((s.input.drop a).take n) := if_pos h

theorem State.memRead_none {s : State} {a n : Nat} (h : s.len < a + n) : s.memRead a n = none :=
  if_neg (Nat.not_le.mpr h)

theorem State.withChunk_present {s : State} {n : Nat} (body : State → Result) (h : s.pc + n ≤ s.len) :
    s.withChunk n body = body s := by
  simp [State.withChunk, State.memRead_some h]

theorem State.withChunk_truncated {s : State} {n : Nat} (body : State → Result) (h : s.len < s.pc + n) :
    s.withChunk n body = .next (s.takeFault .truncatedStream) := by
  simp [State.withChunk, State.memRead_none h]

/-- Bytes placed at an offset are what the stream holds there. -/
theorem drop_placeBytes (stream bytes : List Byte) (a : Nat) :
    (placeBytes stream a bytes).drop a = bytes ++ stream.drop (a + bytes.length) := by
  have h : (stream.take a ++ List.replicate (a - stream.length) 0).length = a := by
    simp only [List.length_append, List.length_take, List.length_replicate]
    omega
  rw [placeBytes, List.append_assoc, List.drop_append_of_le_length (Nat.le_of_eq h.symm), List.drop_eq_nil_of_le (Nat.le_of_eq h)]
  rfl

theorem State.fetch_ok {s : State} {i : Instr} {rest : List Byte} (h : decode (s.input.drop s.pc) = .ok (i, rest)) :
    s.fetch = .ok i := by
  simp [State.fetch, h]

theorem State.fetch_error {s : State} {e : DecodeError} (h : decode (s.input.drop s.pc) = .error e) :
    s.fetch = .error e := by
  simp [State.fetch, h]

/-! Fault entry -/

theorem State.takeFault_truncated (s : State) : FaultEntered s (s.takeFault .truncatedStream) .truncatedStream := by
  constructor <;> rfl

theorem State.takeFault_unrecognized (s : State) (tag : Byte) :
    FaultEntered s (s.takeFault (.unrecognizedTag tag)) .unrecognizedTag := by
  constructor <;> rfl

/-! Write-back, advance and termination -/

/-- Everything `emit` can do where it answers a next state. -/
theorem State.emit_spec {s t : State} {px : Pixel} (h : s.emit px = .next t) :
    Emitted s t px ∧ t.runLength = s.runLength ∧ t.table = s.table ∧ t.pc = s.pc ∧ t.freeCount = s.freeCount ∧
      s.linear < s.grid.size ∧ (s.grid.wf = true → t.grid.wf = true) := by
  unfold State.emit at h
  split at h
  · next g hg =>
    cases h
    obtain ⟨hk, hs, hr⟩ := Memory.write_spec hg
    refine ⟨⟨?_, ?_, ?_, ?_, ?_, ?_, ?_, ?_, ?_, ?_, ?_, ?_, ?_⟩, ?_, ?_, ?_, ?_, hk, fun hw => ?_⟩ <;>
      simp [Memory.write_wf hg, *]
  · cases h

theorem State.emit_next {s : State} (px : Pixel) (h : s.linear < s.grid.size) : ∃ t, s.emit px = .next t := by
  obtain ⟨g, hg⟩ := Memory.write_some px h
  exact ⟨_, by simp [State.emit, hg]; rfl⟩

theorem State.emit_refused (s : State) (px : Pixel) (r : Refusal) : s.emit px ≠ .refused r := by
  unfold State.emit
  split <;> simp

/-! The Grid's canonical form -/

theorem reset_grid_wf : State.reset.grid.wf = true := rfl

theorem decodeStart_grid_wf (s : State) (w h : Word) (input : List Byte) (n : Nat) :
    (s.decodeStart w h input n).grid.wf = true := rfl

/-! Start -/

/-- Everything a start can do where it answers a next state. -/
theorem hostStart_cases {maxPixels : Option Nat} {r : StartRequest} {s t : State} (h : hostStart maxPixels r s = .next t) :
    s.status ≠ .busy ∧ 0 < r.width.toNat ∧ 0 < r.height.toNat ∧ r.pixels ≤ r.gridCells ∧
      t = s.decodeStart r.width r.height r.input r.gridCells := by
  unfold hostStart at h
  split at h
  · cases h
  · next hb =>
    split at h
    · cases h
    · next hz =>
      split at h
      · cases h
      · next hg =>
        split at h
        · cases h
        · cases h
          refine ⟨hb, ?_, ?_, Nat.le_of_not_lt hg, rfl⟩
          · exact Nat.pos_of_ne_zero fun h0 => hz (.inl (BitVec.eq_of_toNat_eq h0))
          · exact Nat.pos_of_ne_zero fun h0 => hz (.inr (BitVec.eq_of_toNat_eq h0))

end Sys2Proof.Machine
end

