-- ==== Sys2Proof/Laws/PerInstr.lean ====
section
/-! SUPPORT. Statements about every chunk as syntax, one lemma per constructor. -/

namespace Sys2Proof.Laws

/-- R52: a chunk's encoding has the chunk's length in bytes. -/
def EncodedLength.Statement (i : Instr) : Prop := (encode i).length = i.length

theorem EncodedLength.rgb (r g b : Byte) : EncodedLength.Statement (.rgb r g b) := rfl
theorem EncodedLength.rgba (r g b a : Byte) : EncodedLength.Statement (.rgba r g b a) := rfl
theorem EncodedLength.index (i : BitVec 6) : EncodedLength.Statement (.index i) := rfl
theorem EncodedLength.diff (vr vg vb : BitVec 2) : EncodedLength.Statement (.diff vr vg vb) := rfl
theorem EncodedLength.luma (vg : BitVec 6) (vrg vbg : BitVec 4) : EncodedLength.Statement (.luma vg vrg vbg) := rfl
theorem EncodedLength.run (vrun : BitVec 6) : EncodedLength.Statement (.run vrun) := rfl

end Sys2Proof.Laws
end

