-- ==== Sys2Proof/Laws/Step.lean ====
section
/-! SUPPORT. What `exec`, the run continuation and `step` can do, said once: every meaning is one shape, and each
invariant is a case analysis over it. -/

namespace Sys2Proof.Machine

/-- The pixel a chunk produces. -/
def chunkPixel : Instr → State → Pixel
  | .rgb r g b, s => ⟨r, g, b, s.lastPix.a⟩
  | .rgba r g b a, _ => ⟨r, g, b, a⟩
  | .index i, s => s.slot i
  | .diff vr vg vb, s => diffPixel s.lastPix vr vg vb
  | .luma vg vrg vbg, s => lumaPixel s.lastPix vg vrg vbg
  | .run _, s => s.lastPix

/-- A chunk's own effect on `run_length` and the table, before the cursor moves and the pixel is written back. -/
def chunkEffect : Instr → State → State
  | .rgb r g b, s => s.recordToCache (chunkPixel (.rgb r g b) s)
  | .rgba r g b a, s => s.recordToCache (chunkPixel (.rgba r g b a) s)
  | .index _, s => s
  | .diff vr vg vb, s => s.recordToCache (chunkPixel (.diff vr vg vb) s)
  | .luma vg vrg vbg, s => s.recordToCache (chunkPixel (.luma vg vrg vbg) s)
  | .run vrun, s => { s with runLength := vrun }

/-- Every meaning has one shape. -/
theorem exec_eq (i : Instr) (s : State) :
    exec i s = s.withChunk i.length fun s => ((chunkEffect i s).advanceCursor i.length).emit (chunkPixel i s) := by
  cases i <;> rfl

/-- `run_length` after a chunk. -/
def runLengthAfter : Instr → State → BitVec 6
  | .rgb _ _ _, s => s.runLength
  | .rgba _ _ _ _, s => s.runLength
  | .index _, s => s.runLength
  | .diff _ _ _, s => s.runLength
  | .luma _ _ _, s => s.runLength
  | .run vrun, _ => vrun

/-- The table after a chunk: recorded by RGB, RGBA, DIFF and LUMA alone (R76). -/
def TableAfter : Instr → State → State → Prop
  | .rgb r g b, s, t => Recorded s t (chunkPixel (.rgb r g b) s)
  | .rgba r g b a, s, t => Recorded s t (chunkPixel (.rgba r g b a) s)
  | .index _, s, t => t.table = s.table
  | .diff vr vg vb, s, t => Recorded s t (chunkPixel (.diff vr vg vb) s)
  | .luma vg vrg vbg, s, t => Recorded s t (chunkPixel (.luma vg vrg vbg) s)
  | .run _, s, t => t.table = s.table

/-- A chunk that ran whole, from `s` to `t`. -/
structure ChunkRan (i : Instr) (s t : State) : Prop where
  present : s.pc + i.length ≤ s.len
  inGrid : s.linear < s.grid.size
  emitted : Emitted s t (chunkPixel i s)
  runLength : t.runLength = runLengthAfter i s
  table : TableAfter i s t
  pc : t.pc = s.pc + i.length
  freeCount : t.freeCount = s.freeCount
  gridWf : s.grid.wf = true → t.grid.wf = true

/-- What a chunk leaves of the state before its write-back. -/
theorem chunkEffect_frame (i : Instr) (s : State) :
    ∃ rl tb, chunkEffect i s = { s with runLength := rl, table := tb } := by
  cases i <;> exact ⟨_, _, rfl⟩

theorem tableAfter_chunkEffect {i : Instr} {s t : State} (h : t.table = (chunkEffect i s).table) :
    TableAfter i s t := by
  cases i
  case index => exact h
  case run => exact h
  all_goals exact fun j => (State.slot_congr h j).trans (State.slot_recordToCache _ _ _)

theorem runLengthAfter_chunkEffect (i : Instr) (s : State) : (chunkEffect i s).runLength = runLengthAfter i s := by
  cases i <;> rfl

theorem chunkRan_of_emit {i : Instr} {s t : State} (hp : s.pc + i.length ≤ s.len)
    (h : ((chunkEffect i s).advanceCursor i.length).emit (chunkPixel i s) = .next t) : ChunkRan i s t := by
  obtain ⟨he, hrl, htb, hpc, hfc, hg, hwf⟩ := State.emit_spec h
  have htable := tableAfter_chunkEffect (i := i) (s := s) (t := t) (by simpa using htb)
  have hrun : t.runLength = runLengthAfter i s := by simpa [runLengthAfter_chunkEffect] using hrl
  obtain ⟨rl, tb, heff⟩ := chunkEffect_frame i s
  rw [heff] at he hpc hfc hg hwf
  exact ⟨hp, hg, ⟨he.lastPix, he.cells, he.gridSize, he.col, he.row, he.status, he.width, he.height, he.input, he.fcause,
    he.fbyte, he.frow, he.fcol⟩, hrun, htable, hpc, hfc, hwf⟩

/-- Everything a chunk can do where it answers a next state. -/
theorem exec_cases {i : Instr} {s t : State} (h : exec i s = .next t) :
    ChunkRan i s t ∨ (s.len < s.pc + i.length ∧ t = s.takeFault .truncatedStream) := by
  rw [exec_eq] at h
  by_cases hp : s.pc + i.length ≤ s.len
  · rw [State.withChunk_present _ hp] at h
    exact .inl (chunkRan_of_emit hp h)
  · rw [State.withChunk_truncated _ (Nat.lt_of_not_le hp)] at h
    cases h
    exact .inr ⟨Nat.lt_of_not_le hp, rfl⟩

/-- A chunk that is wholly there, at a position inside the Grid, runs. -/
theorem exec_runs {i : Instr} {s : State} (hp : s.pc + i.length ≤ s.len) (hg : s.linear < s.grid.size) :
    ∃ t, exec i s = .next t ∧ ChunkRan i s t := by
  obtain ⟨rl, tb, heff⟩ := chunkEffect_frame i s
  have hg' : ((chunkEffect i s).advanceCursor i.length).linear < ((chunkEffect i s).advanceCursor i.length).grid.size := by
    rw [heff]
    exact hg
  obtain ⟨t, ht⟩ := State.emit_next (chunkPixel i s) hg'
  exact ⟨t, by rw [exec_eq, State.withChunk_present _ hp, ht], chunkRan_of_emit hp ht⟩

/-- A chunk that is not wholly there takes TruncatedStream. -/
theorem exec_truncated {i : Instr} {s : State} (hp : s.len < s.pc + i.length) :
    exec i s = .next (s.takeFault .truncatedStream) := by
  rw [exec_eq, State.withChunk_truncated _ hp]

/-- A run continuation, from `s` to `t`. -/
structure Continued (s t : State) : Prop where
  inGrid : s.linear < s.grid.size
  emitted : Emitted s t s.lastPix
  runLength : t.runLength = s.runLength - 1
  table : t.table = s.table
  pc : t.pc = s.pc
  freeCount : t.freeCount = s.freeCount
  gridWf : s.grid.wf = true → t.grid.wf = true

theorem runContinuation_spec {s t : State} (h : runContinuation s = .next t) : Continued s t := by
  obtain ⟨he, hrl, htb, hpc, hfc, hg, hwf⟩ := State.emit_spec h
  exact ⟨hg, ⟨he.lastPix, he.cells, he.gridSize, he.col, he.row, he.status, he.width, he.height, he.input, he.fcause,
    he.fbyte, he.frow, he.fcol⟩, hrl, htb, hpc, hfc, hwf⟩

theorem runContinuation_runs {s : State} (hg : s.linear < s.grid.size) :
    ∃ t, runContinuation s = .next t ∧ Continued s t := by
  obtain ⟨t, ht⟩ := State.emit_next (s := { s with runLength := s.runLength - 1 }) s.lastPix hg
  exact ⟨t, ht, runContinuation_spec ht⟩

theorem State.inRun_iff (s : State) : s.inRun = true ↔ 0 < s.runLength.toNat := by simp [State.inRun]

theorem State.inRun_false_iff (s : State) : s.inRun = false ↔ s.runLength = 0 := by
  simp only [State.inRun, decide_eq_false_iff_not]
  rw [← BitVec.toNat_inj]
  simp

theorem step_inRun {s : State} (hb : s.status = .busy) (hr : s.inRun = true) : step s = runContinuation s := by
  simp [step, hb, hr]

theorem step_chunk {s : State} {i : Instr} (hb : s.status = .busy) (hr : s.inRun = false) (hf : s.fetch = .ok i) :
    step s = exec i s := by
  simp [step, hb, hr, hf]

theorem step_fetchFault {s : State} {e : DecodeError} (hb : s.status = .busy) (hr : s.inRun = false)
    (hf : s.fetch = .error e) : step s = .next (s.takeFault (raisedBy e)) := by
  simp [step, hb, hr, hf]

theorem step_disabled {s : State} (h : s.status ≠ .busy) : step s = .refused (.noStepEnabled s.status) := by
  unfold step
  cases hs : s.status <;> simp_all

/-- Everything a step can do where it answers a next state. -/
theorem step_cases {s t : State} (h : step s = .next t) :
    s.status = .busy ∧
      ((s.inRun = true ∧ Continued s t) ∨
       (s.inRun = false ∧ ∃ i, s.fetch = .ok i ∧ exec i s = .next t) ∨
       (s.inRun = false ∧ ∃ e, s.fetch = .error e ∧ t = s.takeFault (raisedBy e))) := by
  by_cases hb : s.status = .busy
  · refine ⟨hb, ?_⟩
    cases hr : s.inRun
    · cases hf : s.fetch with
      | ok i => exact .inr (.inl ⟨rfl, i, rfl, by rwa [step_chunk hb hr hf] at h⟩)
      | error e =>
        rw [step_fetchFault hb hr hf] at h
        cases h
        exact .inr (.inr ⟨rfl, e, rfl, rfl⟩)
    · rw [step_inRun hb hr] at h
      exact .inl ⟨rfl, runContinuation_spec h⟩
  · rw [step_disabled hb] at h
    cases h

/-! Runs of several steps -/

@[simp] theorem run_zero (s : State) : run 0 s = .next s := rfl

theorem run_succ {s t : State} (k : Nat) (h : step s = .next t) : run (k + 1) s = run k t := by
  simp [run, h]

theorem run_succ_cases {s t : State} {k : Nat} (h : run (k + 1) s = .next t) :
    ∃ u, step s = .next u ∧ run k u = .next t := by
  simp only [run] at h
  split at h
  · next u hu => exact ⟨u, hu, h⟩
  · cases h
  · cases h

theorem run_add {s t : State} {j : Nat} (k : Nat) (h : run j s = .next t) : run (j + k) s = run k t := by
  induction j generalizing s with
  | zero =>
    cases h
    rw [Nat.zero_add]
  | succ j ih =>
    obtain ⟨u, hu, hrest⟩ := run_succ_cases h
    rw [Nat.add_right_comm, run_succ _ hu, ih hrest]

/-- A property that every step keeps holds after every run. -/
theorem run_keeps {P : State → Prop} (hstep : ∀ s t, P s → step s = .next t → P t) {s t : State} {k : Nat} (hs : P s)
    (h : run k s = .next t) : P t := by
  induction k generalizing s with
  | zero =>
    cases h
    exact hs
  | succ k ih =>
    obtain ⟨u, hu, hrest⟩ := run_succ_cases h
    exact ih (hstep s u hs hu) hrest

end Sys2Proof.Machine
end

