-- ==== Sys2Proof/Tests/Slice0.lean ====
section
/-! SUPPORT. The model's own tests: expected results are the spec's vectors (`95_test_vectors.md`) and worked examples,
words are written out from the format tables (R53 to R58). The witness theorems show, for each obligation with
hypotheses, states and operands that meet them. -/

namespace Sys2Proof.Tests

open Sys2Proof.Machine

/-! Helpers -/

/-- A decode just started on a `w` × `h` image from the stream `bytes`. -/
def started (w h : Word) (bytes : List Byte) : State :=
  State.reset.decodeStart w h bytes (w.toNat * h.toNat)

/-- Some property of the state an outcome goes on with; false of a stop. -/
def goesOn (o : Result) (p : State → Bool) : Bool :=
  match o with
  | .next t => p t
  | .fault _ => false
  | .refused _ => false

/-- An outcome that goes on has a next state with the property. -/
theorem next_of_goesOn {o : Result} {p : State → Bool} (h : goesOn o p = true) : ∃ t, o = .next t ∧ p t = true := by
  unfold goesOn at h
  split at h
  · exact ⟨_, rfl, h⟩
  · cases h
  · cases h

/-! Decoding: one word of each family written out bit by bit (R53 to R58), the boundary tags of V-TAG-ALL -/

theorem test_decode_rgb : decode [0b11111110#8, 0b00001010#8, 0b00010100#8, 0b00011110#8] = .ok (.rgb 10 20 30, []) := by
  decide
theorem test_decode_rgba :
    decode [0b11111111#8, 0b00000001#8, 0b00000010#8, 0b00000011#8, 0b10000000#8] = .ok (.rgba 1 2 3 128, []) := by decide
theorem test_decode_index : decode [0b00110101#8] = .ok (.index 53, []) := by decide
theorem test_decode_diff : decode [0b01001011#8] = .ok (.diff 0 2 3, []) := by decide
theorem test_decode_luma : decode [0b10100001#8, 0b10010111#8] = .ok (.luma 33 9 7, []) := by decide
theorem test_decode_run : decode [0b11111101#8] = .ok (.run 61, []) := by decide
theorem test_boundary_tags :
    [0x00#8, 0x3F#8, 0x40#8, 0x7F#8, 0x80#8, 0xBF#8, 0xC0#8, 0xFD#8, 0xFE#8, 0xFF#8].map classify =
      [some .index, some .index, some .diff, some .diff, some .luma, some .luma, some .run, some .run, some .rgb,
        some .rgba] := by decide
/-- R101 corner case 4: `BF FF` is one LUMA chunk. -/
theorem test_second_byte_is_data : decode [0xBF#8, 0xFF#8] = .ok (.luma 63 15 15, []) := by decide
theorem test_truncated_rgba : decode [0xFF#8, 1#8, 2#8, 3#8] = .error (.truncated .rgba) := by decide
theorem test_no_tag : decode [] = .error .noTag := by decide
theorem test_decode_table_words :
    decodeTableWord 32 0x1E140AFE = some (.rgb 10 20 30) ∧ decodeTableWord 8 0xFE = some (.rgb 0 0 0) ∧
    decodeTableWord 40 0x80030201FF = some (.rgba 1 2 3 128) ∧ decodeTableWord 16 0x97A1 = some (.luma 33 9 7) ∧
    decodeTableWord 8 0x35 = some (.index 53) ∧ decodeTableWord 8 0x4B = some (.diff 0 2 3) ∧
    decodeTableWord 8 0xC2 = some (.run 2) := by decide
/-- The first instruction after reset, placed by `withFetchWord` (log entry 5): V-RGB's first row. -/
theorem test_first_instruction_after_reset :
    goesOn (step (State.reset.withFetchWord 32 0x1E140AFE))
      (fun t => decide (t.lastPix = ⟨10, 20, 30, 255⟩ ∧ t.pc = 4 ∧ t.status = .busy)) = true := by decide

/-! Well-formedness: the one check refuses both terms it must, and they have no encoding of their own -/

theorem test_ill_formed_run62 : (Instr.run 62).wellFormed = false := by decide
theorem test_ill_formed_run63 : (Instr.run 63).wellFormed = false := by decide
theorem test_well_formed_run61 : (Instr.run 61).wellFormed = true := by decide

/-! V-HASH, V-ARITH, R41 -/

theorem test_hash_vectors :
    [(⟨0, 0, 0, 255⟩ : Pixel), ⟨255, 255, 255, 255⟩, ⟨1, 0, 0, 0⟩, ⟨0, 1, 0, 0⟩, ⟨0, 0, 1, 0⟩, ⟨0, 0, 0, 1⟩,
      ⟨200, 100, 50, 25⟩, ⟨100, 150, 200, 255⟩].map pixelHash = [53, 38, 3, 5, 7, 11, 61, 7] := by decide
theorem test_arith_vectors :
    add8 255 1 = 0 ∧ add8 200 100 = 44 ∧ sub8 0 1 = 255 ∧ applyBias 1 0 2 = 255 ∧ applyBias 255 3 2 = 0 ∧
    applyBias 255 63 32 = 30 ∧ applyBias (applyBias 0 0 32) 0 8 = 216 := by decide
theorem test_pack : packPixel ⟨0x12, 0x34, 0x56, 0x78⟩ = 0x12345678 := by decide

/-! The operations (V-RGB to V-RUN), one step each -/

/-- V-RGB, first row. -/
theorem test_rgb :
    goesOn (step (started 1 1 [0xFE, 0x0A, 0x14, 0x1E]))
      (fun t => decide (t.grid.read 0 = some ⟨10, 20, 30, 255⟩ ∧ t.slot 9 = ⟨10, 20, 30, 255⟩ ∧ t.pc = 4 ∧
        t.status = .done)) = true := by decide
/-- R90's example: the alpha is the previous pixel's, and the hash uses it. -/
theorem test_rgb_carries_alpha :
    goesOn (exec (.rgb 10 20 30) { started 2 1 [0xFE, 0x0A, 0x14, 0x1E] with lastPix := ⟨1, 2, 3, 128⟩ })
      (fun t => decide (t.lastPix = ⟨10, 20, 30, 128⟩ ∧ t.slot 20 = ⟨10, 20, 30, 128⟩ ∧ t.slot 9 = Pixel.zero)) = true := by
  decide
/-- V-RGBA, second row. -/
theorem test_rgba :
    goesOn (step (started 1 1 [0xFF, 0xC8, 0x64, 0x32, 0x19]))
      (fun t => decide (t.grid.read 0 = some ⟨200, 100, 50, 25⟩ ∧ t.slot 61 = ⟨200, 100, 50, 25⟩ ∧ t.pc = 5)) = true := by
  decide
/-- V-INDEX, second row: slot 53 at start is not the start pixel. -/
theorem test_index_at_start :
    goesOn (step (started 1 1 [0x35]))
      (fun t => decide (t.grid.read 0 = some Pixel.zero ∧ t.table = State.reset.table ∧ t.pc = 1)) = true := by decide
/-- V-INDEX, fourth row, its second step. -/
theorem test_index_reads_record :
    goesOn (exec (.index 9) (started 2 1 [0x09] |>.recordToCache ⟨10, 20, 30, 255⟩))
      (fun t => decide (t.lastPix = ⟨10, 20, 30, 255⟩ ∧ t.slot 9 = ⟨10, 20, 30, 255⟩)) = true := by decide
/-- V-DIFF, `4B`. -/
theorem test_diff :
    goesOn (step (started 1 1 [0x4B]))
      (fun t => decide (t.grid.read 0 = some ⟨254, 0, 1, 255⟩ ∧ t.slot 54 = ⟨254, 0, 1, 255⟩)) = true := by decide
/-- R100's example: both wraparounds. -/
theorem test_diff_wraps :
    goesOn (exec (.diff 0 0 3) { started 2 1 [0x43] with lastPix := ⟨1, 0, 255, 255⟩ })
      (fun t => decide (t.lastPix = ⟨255, 254, 0, 255⟩ ∧ t.slot 40 = ⟨255, 254, 0, 255⟩)) = true := by decide
/-- V-LUMA, `A1 97`: high nibble red, low nibble blue. -/
theorem test_luma :
    goesOn (step (started 1 1 [0xA1, 0x97]))
      (fun t => decide (t.grid.read 0 = some ⟨2, 1, 0, 255⟩ ∧ t.slot 0 = ⟨2, 1, 0, 255⟩ ∧ t.pc = 2)) = true := by decide
/-- V-LUMA, `A5 A5` on {11,20,29,255}. -/
theorem test_luma_mixed :
    goesOn (exec (.luma 37 10 5) { started 2 1 [0xA5, 0xA5] with lastPix := ⟨11, 20, 29, 255⟩ })
      (fun t => decide (t.lastPix = ⟨18, 25, 31, 255⟩ ∧ t.slot 1 = ⟨18, 25, 31, 255⟩)) = true := by decide
/-- R110's example. -/
theorem test_run :
    goesOn (step (started 3 1 [0xC2]))
      (fun t => decide (t.lastPix = Pixel.start ∧ t.runLength = 2 ∧ t.pc = 1 ∧ t.table = State.reset.table)) = true := by
  decide
/-- R112's example: position (0,1) to (0,2). -/
theorem test_continuation :
    goesOn (step { started 3 1 [] with lastPix := ⟨10, 20, 30, 255⟩, runLength := 2, col := 1 })
      (fun t => decide (t.grid.read 1 = some ⟨10, 20, 30, 255⟩ ∧ t.runLength = 1 ∧ t.row = 0 ∧ t.col = 2 ∧ t.pc = 0)) =
      true := by decide
/-- R151's example: the stream is exhausted during the run, and the decode ends DONE. -/
theorem test_run_without_bytes :
    goesOn (run 3 (started 3 1 [0xC2])) (fun t => decide (t.status = .done ∧ t.runLength = 0 ∧ t.fcause = .none)) = true := by
  decide

/-! Faults (V-FAULT, P5) and stops -/

/-- V-FAULT, `2×1`, `6A A0`, from its second step's state: position (0,1), nothing else changed. -/
theorem test_truncated_luma :
    goesOn (step { started 2 1 [0x6A, 0xA0] with pc := 1, col := 1 })
      (fun t => decide (t.status = .fault ∧ t.fcause.code = 1 ∧ t.frow = 0 ∧ t.fcol = 1 ∧ t.pc = 1 ∧
        t.table = State.reset.table ∧ (hostReadFaultRecord t).byte = none)) = true := by decide
/-- P5 (a): the empty stream. -/
theorem test_empty_stream :
    goesOn (step (started 1 1 [])) (fun t => decide (t.status = .fault ∧ t.pc = 0 ∧ t.grid.read 0 = none)) = true := by
  decide
/-- R20: before a fault the whole record reads 0. -/
theorem test_fault_record_before_a_fault : hostReadFaultRecord State.reset = ⟨0, some 0, 0, 0⟩ := by decide
theorem test_no_step_at_reset : goesOn (step State.reset) (fun _ => true) = false := by decide
/-- R81: the end of a row. -/
theorem test_row_wraps :
    goesOn (step { started 2 2 [0xC0] with col := 1 }) (fun t => decide (t.row = 1 ∧ t.col = 0 ∧ t.status = .busy)) = true := by
  decide
theorem test_start_zero_refused :
    hostStart none ⟨0, 1, [], 0⟩ State.reset = .refused .zeroDimension := by rfl
theorem test_memory_canonical :
    ((Memory.blank 3).write 2 Pixel.zero >>= fun m => m.write 0 Pixel.start) =
      some ⟨3, [(0, Pixel.start), (2, Pixel.zero)]⟩ := by decide

/-! ## Witnesses: states and operands that meet the hypotheses of the obligations, at the boundaries of their ranges -/

/-! Encoding -/

theorem witness_FormatTablesDecode : (61#6).toNat ≤ 61 := by decide
theorem witness_DecodeOfEncodeIsIdentity :
    (Instr.run 61).wellFormed = true ∧ (Instr.rgb 0xFF 0xFE 0).wellFormed = true ∧ (Instr.diff 3 0 2).wellFormed = true := by
  decide
theorem witness_DecodedBytesAreTheEncoding : decode [0xC0#8, 0xFF#8] = .ok (.run 0, [0xFF#8]) := by decide
theorem witness_EveryTagAndOperandIsLegal :
    Op.rgba.length ≤ [0#8, 0#8, 0#8, 0#8].length + 1 ∧ Op.run.length ≤ ([] : List Byte).length + 1 := by decide
theorem witness_ChunkLengths :
    decode [0xFF#8, 0#8, 0#8, 0#8, 0#8] = .ok (.rgba 0 0 0 0, []) ∧ decode [0x3F#8] = .ok (.index 63, []) := by decide
theorem witness_ArithmeticLaws : 1 ≤ 1 ∧ 1 ≤ 255 ∧ 1 ≤ 255 ∧ 255 ≤ 255 := by decide
theorem witness_HashWidthIsIrrelevant : 6 ≤ 6 ∧ 6 ≤ 8 := by decide
theorem witness_CollisionsOverwriteSilently :
    pixelHash ⟨128, 0, 0, 255⟩ = pixelHash ⟨0, 0, 0, 255⟩ ∧ (0#6) ≠ pixelHash ⟨128, 0, 0, 255⟩ := by decide

/-! The stream and the Grid -/

theorem witness_MemReadWholeOrTruncated :
    1 ≤ 4 ∧ 0 + 4 ≤ (started 1 1 [0xFE, 1, 2, 3]).input.length ∧ (started 1 1 [0xFE, 1, 2, 3]).input.length < 1 + 4 ∧
      (started 1 1 [0xFE, 1, 2]).input.length < (started 1 1 [0xFE, 1, 2]).pc + 4 := by decide
theorem witness_GridWriteIsOneCell :
    1 < (Memory.blank 2).size ∧
      ({ started 2 3 [] with row := 2, col := 1 } : State).row.toNat < (started 2 3 []).height.toNat ∧
      ({ started 2 3 [] with row := 2, col := 1 } : State).col.toNat < (started 2 3 []).width.toNat := by decide

/-! The operations: the whole chunk at the last bytes of the stream, and one byte fewer -/

theorem witness_RgbResult :
    (started 1 1 [0xFE, 1, 2, 3]).pc + 4 ≤ (started 1 1 [0xFE, 1, 2, 3]).input.length ∧
      (started 1 1 [0xFE, 1, 2, 3]).linear < (started 1 1 [0xFE, 1, 2, 3]).grid.size ∧
      (started 1 1 [0xFE, 1, 2]).input.length < (started 1 1 [0xFE, 1, 2]).pc + 4 := by decide
theorem witness_RgbaResult :
    (started 1 1 [0xFF, 1, 2, 3, 4]).pc + 5 ≤ (started 1 1 [0xFF, 1, 2, 3, 4]).input.length ∧
      (started 1 1 [0xFF, 1, 2, 3, 4]).linear < (started 1 1 [0xFF, 1, 2, 3, 4]).grid.size ∧
      (started 1 1 [0xFF, 1, 2, 3]).input.length < (started 1 1 [0xFF, 1, 2, 3]).pc + 5 := by decide
theorem witness_IndexResult :
    (started 1 1 [0x3F]).pc + 1 ≤ (started 1 1 [0x3F]).input.length ∧
      (started 1 1 [0x3F]).linear < (started 1 1 [0x3F]).grid.size ∧
      (started 1 1 []).input.length < (started 1 1 []).pc + 1 := by decide
theorem witness_DiffResult :
    (started 1 1 [0x40]).pc + 1 ≤ (started 1 1 [0x40]).input.length ∧
      (started 1 1 [0x40]).linear < (started 1 1 [0x40]).grid.size ∧
      (started 1 1 []).input.length < (started 1 1 []).pc + 1 := by decide
theorem witness_LumaResult :
    (started 1 1 [0x80, 0]).pc + 2 ≤ (started 1 1 [0x80, 0]).input.length ∧
      (started 1 1 [0x80, 0]).linear < (started 1 1 [0x80, 0]).grid.size ∧
      (started 1 1 [0x80]).input.length < (started 1 1 [0x80]).pc + 2 := by decide
theorem witness_RunResult :
    (started 1 1 [0xFD]).pc + 1 ≤ (started 1 1 [0xFD]).input.length ∧
      (started 1 1 [0xFD]).linear < (started 1 1 [0xFD]).grid.size ∧
      (started 1 1 []).input.length < (started 1 1 []).pc + 1 := by decide

/-- A decode in InRun, at a stream that holds no byte. -/
def inRunState (n : BitVec 6) : State := { started 2 2 [] with runLength := n }

theorem witness_RunContinuationResult :
    (inRunState 1).status = .busy ∧ 0 < (inRunState 1).runLength.toNat ∧ (inRunState 1).linear < (inRunState 1).grid.size := by
  decide
theorem witness_TableWriters :
    (∃ t, exec (.rgb 1 2 3) (started 1 1 [0xFE, 1, 2, 3]) = .next t ∧ decide (t.status = .done) = true) ∧
      (∃ t, exec (.index 0) (started 1 1 [0]) = .next t ∧ decide (t.status = .done) = true) ∧
      (∃ t, step (inRunState 1) = .next t ∧ decide (t.runLength = 0) = true) :=
  ⟨next_of_goesOn (by decide), next_of_goesOn (by decide), next_of_goesOn (by decide)⟩
theorem witness_IndexAfterRecordReadsIt :
    ∃ t, exec (.rgb 10 20 30) (started 2 1 [0xFE, 10, 20, 30, 9]) = .next t ∧
      decide (t.pc + 1 ≤ t.input.length ∧ pixelHash t.lastPix = 9 ∧
        goesOn (exec (.index (pixelHash t.lastPix)) t) (fun _ => true) = true) = true :=
  next_of_goesOn (by decide)
theorem witness_AlphaIsCarried :
    (∃ t, exec (.diff 2 2 2) (started 1 1 [0x6A]) = .next t ∧ decide (t.status = .done) = true) ∧
      (∃ t, step (inRunState 61) = .next t ∧ decide (t.runLength = 60) = true) :=
  ⟨next_of_goesOn (by decide), next_of_goesOn (by decide)⟩

/-! The step -/

theorem witness_StepRunsDecodedChunk :
    (started 1 1 [0xC0]).status = .busy ∧ (started 1 1 [0xC0]).runLength = 0 ∧
      decode ((started 1 1 [0xC0]).input.drop (started 1 1 [0xC0]).pc) = .ok (.run 0, []) := by decide
theorem witness_NoStepUnlessBusy : State.reset.status ≠ .busy := by decide
/-- Cases (a) to (d) of R121 at their boundaries, the cases next to them that take no fault, and InRun. -/
theorem witness_TruncationCases :
    (started 1 1 []).status = .busy ∧ (started 1 1 []).pc ≤ (started 1 1 []).input.length ∧
      (started 1 1 []).linear < (started 1 1 []).grid.size ∧ (started 1 1 []).input[(started 1 1 []).pc]? = none ∧
      (started 1 1 [0xFE, 0, 0]).input[0]? = some 0xFE ∧ (started 1 1 [0xFE, 0, 0]).input.length - 0 = 3 ∧
      (started 1 1 [0xFF, 0, 0, 0]).input[0]? = some 0xFF ∧ (started 1 1 [0xFF, 0, 0, 0]).input.length - 0 = 4 ∧
      (started 1 1 [0xBF]).input[0]? = some 0xBF ∧ (started 1 1 [0xBF]).input.length - 0 = 1 ∧
      (started 1 1 [0x7F]).input[0]? = some 0x7F ∧ (started 1 1 [0xFE, 0, 0, 0]).input.length - 0 = 4 ∧
      0 < (inRunState 1).runLength.toNat ∧ (started 1 1 []).runLength = 0 := by decide
theorem witness_UnrecognizedTagIsNeverRaised :
    ∃ t, step { started 1 1 [0xC0] with fcause := .unrecognizedTag } = .next t ∧
      decide (t.fcause = .unrecognizedTag) = true := next_of_goesOn (by decide)
/-- A step inside a row, one at the end of a row and one at the end of the grid. -/
theorem witness_LinearIndexAdvancesByOne :
    (∃ t, step (started 2 2 [0xC0]) = .next t ∧ decide (t.status = .busy) = true) ∧
      (∃ t, step { started 2 2 [0xC0] with col := 1 } = .next t ∧ decide (t.status = .busy) = true) ∧
      (∃ t, step { started 2 2 [0xC0] with row := 1, col := 1 } = .next t ∧ decide (t.status = .done) = true) ∧
      (started 2 2 []).row.toNat < (started 2 2 []).height.toNat ∧
      (started 2 2 []).col.toNat < (started 2 2 []).width.toNat :=
  ⟨next_of_goesOn (by decide), next_of_goesOn (by decide), next_of_goesOn (by decide), by decide, by decide⟩
theorem witness_DoneExactlyAtLastCell :
    (∃ t, step (started 1 1 [0xC0]) = .next t ∧ decide (t.status = .done) = true) ∧
      (∃ t, step (started 2 1 [0xC0]) = .next t ∧ decide (t.status = .busy) = true) ∧
      (started 1 1 []).row.toNat < (started 1 1 []).height.toNat ∧
      (started 1 1 []).col.toNat < (started 1 1 []).width.toNat :=
  ⟨next_of_goesOn (by decide), next_of_goesOn (by decide), by decide, by decide⟩
theorem witness_RunStateTransitions :
    (∃ t, step (inRunState 1) = .next t ∧ decide (t.status = .busy) = true) ∧
      (∃ t, step (started 2 1 [0xC1]) = .next t ∧ decide (t.runLength = 1 ∧ t.status ≠ .fault) = true) ∧
      0 < (inRunState 1).runLength.toNat ∧ (started 2 1 [0xC1]).runLength = 0 :=
  ⟨next_of_goesOn (by decide), next_of_goesOn (by decide), by decide, by decide⟩
theorem witness_CursorStaysInStream :
    (∃ t, step (started 1 1 [0xC0]) = .next t ∧ decide (t.pc = 1) = true) ∧
      (∃ t, step (started 1 1 [0xFE]) = .next t ∧ decide (t.status = .fault) = true) ∧
      (started 1 1 [0xC0]).pc ≤ (started 1 1 [0xC0]).input.length ∧ (started 1 1 [0xC0]).input.length < 2 ^ 1 :=
  ⟨next_of_goesOn (by decide), next_of_goesOn (by decide), by decide, by decide⟩
theorem witness_StepKeepsConfiguration :
    ∃ t, step (started 1 1 [0xC0]) = .next t ∧ decide (t.status = .done) = true := next_of_goesOn (by decide)
theorem witness_FaultRecordOnlyByFaultEntry :
    ∃ t, step (started 1 1 [0xC0]) = .next t ∧ decide (t.status ≠ .fault) = true := next_of_goesOn (by decide)

/-! Invariants and whole decodes -/

/-- A decode just started meets the invariant. -/
theorem started_meets_invariant : DecoderInv (started 2 1 [0xFE, 1, 2, 3, 0xC0]) where
  gridWf := rfl
  runLengthLe := by decide
  cursorLe := by decide
  tableOk i := .inl (slot_replicate _ _ rfl i)
  noFault _ := by decide
  faulted h := by cases h
  busy _ :=
    { rowLt := by decide
      colLt := by decide
      gridFits := by decide
      written := fun k => by
        show none.isSome = true ↔ k < 0
        simp
      last := by decide }

theorem witness_StepKeepsInvariant :
    DecoderInv (started 2 1 [0xFE, 1, 2, 3, 0xC0]) ∧
      ∃ t, step (started 2 1 [0xFE, 1, 2, 3, 0xC0]) = .next t ∧ decide (t.status = .busy) = true :=
  ⟨started_meets_invariant, next_of_goesOn (by decide)⟩
theorem witness_BusyStepAlwaysMoves :
    DecoderInv (started 2 1 [0xFE, 1, 2, 3, 0xC0]) ∧ (started 2 1 [0xFE, 1, 2, 3, 0xC0]).status = .busy :=
  ⟨started_meets_invariant, rfl⟩

/-- A start request for a 2 × 1 image, RGB then RUN 0. -/
def request : StartRequest := ⟨2, 1, [0xFE, 1, 2, 3, 0xC0], 2⟩

theorem witness_ResetAndHostMovesMeetInvariant :
    DecoderInv (started 2 1 [0xFE, 1, 2, 3, 0xC0]) ∧
      (∃ t, hostStart none request State.reset = .next t ∧ decide (t.status = .busy) = true) ∧
      (∃ t, hostSetDimensions 4 2 State.reset = .next t ∧ decide (t.width = 4) = true) :=
  ⟨started_meets_invariant, next_of_goesOn (by decide), next_of_goesOn (by decide)⟩
/-- Of BetweenStepsOfADecode, at its first and at its second position. -/
theorem witness_BetweenStepsOfADecode :
    ∃ s0, hostStart (some 2) request State.reset = .next s0 ∧
      decide (goesOn (run 0 s0) (fun t => decide (t.status = .busy ∧ t.linear = 0)) = true ∧
        goesOn (run 1 s0) (fun t => decide (t.status = .busy ∧ t.linear = 1)) = true) = true :=
  next_of_goesOn (by decide)
/-- RUN 2 in exactly the three cells that remain. -/
theorem witness_RunProducesItsCount :
    (2#6).toNat ≤ 61 ∧ (started 3 1 [0xC2]).status = .busy ∧ (started 3 1 [0xC2]).runLength = 0 ∧
      (started 3 1 [0xC2]).input[(started 3 1 [0xC2]).pc]? = some (0b11#2 ++ 2#6) ∧
      (started 3 1 [0xC2]).row.toNat < (started 3 1 [0xC2]).height.toNat ∧
      (started 3 1 [0xC2]).col.toNat < (started 3 1 [0xC2]).width.toNat ∧
      (started 3 1 [0xC2]).width.toNat * (started 3 1 [0xC2]).height.toNat ≤ (started 3 1 [0xC2]).grid.size ∧
      (started 3 1 [0xC2]).linear + ((2#6).toNat + 1) ≤
        (started 3 1 [0xC2]).width.toNat * (started 3 1 [0xC2]).height.toNat := by decide
theorem witness_OverlongRunEndsWithTheGrid :
    (inRunState 61).status = .busy ∧ (inRunState 61).row.toNat < (inRunState 61).height.toNat ∧
      (inRunState 61).col.toNat < (inRunState 61).width.toNat ∧
      (inRunState 61).width.toNat * (inRunState 61).height.toNat ≤ (inRunState 61).grid.size ∧
      (inRunState 61).linear + 4 = (inRunState 61).width.toNat * (inRunState 61).height.toNat ∧
      4 ≤ (inRunState 61).runLength.toNat := by decide
theorem witness_EveryDecodeEnds :
    ∃ s0, hostStart none request State.reset = .next s0 ∧ decide (s0.status = .busy) = true :=
  next_of_goesOn (by decide)
/-- Of CellsAreWrittenOnceInOrder, after one step and at DONE, with a further run from each. -/
theorem witness_CellsAreWrittenOnceInOrder :
    ∃ s0, hostStart none request State.reset = .next s0 ∧
      decide (goesOn (run 1 s0) (fun t => decide (t.status = .busy) && goesOn (run 1 t) (fun _ => true)) = true ∧
        goesOn (run 2 s0) (fun t => decide (t.status = .done) && goesOn (run 0 t) (fun _ => true)) = true) = true :=
  next_of_goesOn (by decide)
/-- Of TrailingBytesDoNotMatter: a decode that leaves a byte unread, a stream that differs there and one that lacks it. -/
theorem witness_TrailingBytesDoNotMatter :
    ∃ t, run 1 (started 1 1 [0xC0, 7]) = .next t ∧
      decide (t.status = .done ∧ [0xC0#8, 8, 9].take t.pc = [0xC0#8, 7].take t.pc ∧
        [0xC0#8].take t.pc = [0xC0#8, 7].take t.pc) = true := next_of_goesOn (by decide)
/-- Of SameDecodeSameOutcome: a start from reset and one from the state an earlier decode left at FAULT. -/
theorem witness_SameDecodeSameOutcome :
    (∃ s0, hostStart none request State.reset = .next s0 ∧
        decide (goesOn (run 2 s0) (fun u => decide (u.status = .done)) = true) = true) ∧
      ∃ s0, hostStart none request { started 1 1 [0xFE] with status := .fault, lastPix := Pixel.zero } = .next s0 ∧
        decide (s0.status = .busy) = true :=
  ⟨next_of_goesOn (by decide), next_of_goesOn (by decide)⟩

/-! The host -/

/-- Of StartEstablishesDecodeStart: a Grid and a MAX_PIXELS of exactly the image's size. -/
theorem witness_StartEstablishesDecodeStart :
    State.reset.status ≠ .busy ∧ 0 < request.width.toNat ∧ 0 < request.height.toNat ∧
      request.width.toNat * request.height.toNat ≤ request.gridCells ∧
      ∀ n, some 2 = some n → request.width.toNat * request.height.toNat ≤ n :=
  ⟨by decide, by decide, by decide, by decide, fun _ h => Nat.le_of_eq (Option.some.inj h)⟩
/-- Each of the four meaningless starts. -/
theorem witness_MeaninglessStartsAreRefused :
    (started 1 1 []).status = .busy ∧ (⟨0, 1, [], 1⟩ : StartRequest).width = 0 ∧ (⟨1, 0, [], 1⟩ : StartRequest).height = 0 ∧
      (⟨2, 1, [], 1⟩ : StartRequest).gridCells < (2#32).toNat * (1#32).toNat := by decide
theorem witness_DimensionsOnlyWhileNotBusy : State.reset.status ≠ .busy ∧ (started 1 1 []).status = .busy := by decide
theorem witness_GridIsReadOnlyAtDone :
    ({ started 1 1 [] with status := .done } : State).status = .done ∧
      ({ started 1 1 [] with status := .fault } : State).status = .fault ∧
      hostReadCell 0 { started 1 1 [] with status := .done } = .ok none ∧
      hostReadCell 1 { started 1 1 [] with status := .done } = .ok none ∧
      observe { started 1 1 [] with status := .done } = .done (Memory.blank 1) ∧
      observe { started 1 1 [] with status := .fault } = .fault ⟨0, some 0, 0, 0⟩ := by decide

end Sys2Proof.Tests
end

/-! # O46: the same decode has the same outcome (R7)

A start sets every field but `freeCount`, the model's own counter of free values (log entry 1). The counter reaches
nothing but FBYTE, and FBYTE only with a TruncatedStream, where the host does not see it (R124). So two decodes of one
request simulate each other up to those two fields. -/

namespace Sys2Proof.Machine

/-! ## A state with other free values, and what reads none of them -/

/-- `s` with another FBYTE and another count of drawn free values. -/
def State.withFree (s : State) (b : Byte) (c : Nat) : State := { s with fbyte := b, freeCount := c }

theorem State.advancePosition_withFree (s : State) (b : Byte) (c : Nat) :
    (s.withFree b c).advancePosition = s.advancePosition.withFree b c := by
  unfold State.advancePosition
  by_cases h : s.col + 1 = s.width
  · rw [if_pos h]
    exact if_pos h
  · rw [if_neg h]
    exact if_neg h

theorem State.terminate_withFree (s : State) (b : Byte) (c : Nat) :
    (s.withFree b c).terminate = s.terminate.withFree b c := by
  unfold State.terminate
  by_cases h : s.row = s.height
  · rw [if_pos h]
    exact if_pos h
  · rw [if_neg h]
    exact if_neg h

theorem State.emit_of_write {s : State} {px : Pixel} {g : Memory} (h : s.grid.write s.linear px = some g) :
    s.emit px = .next ({ s with grid := g, lastPix := px }).advancePosition.terminate := by
  simp [State.emit, h]

theorem State.emit_withFree {s s' : State} {px : Pixel} (b : Byte) (c : Nat) (h : s.emit px = .next s') :
    (s.withFree b c).emit px = .next (s'.withFree b c) := by
  obtain ⟨-, -, -, -, -, hlt, -⟩ := State.emit_spec h
  obtain ⟨g, hg⟩ := Memory.write_some px hlt
  rw [State.emit_of_write hg] at h
  cases h
  rw [State.emit_of_write (s := s.withFree b c) hg, ← State.terminate_withFree, ← State.advancePosition_withFree]
  rfl

theorem chunkPixel_withFree (i : Instr) (s : State) (b : Byte) (c : Nat) :
    chunkPixel i (s.withFree b c) = chunkPixel i s := by
  cases i <;> rfl

theorem chunkEffect_withFree (i : Instr) (s : State) (b : Byte) (c : Nat) :
    chunkEffect i (s.withFree b c) = (chunkEffect i s).withFree b c := by
  cases i <;> rfl

/-! ## The simulation -/

/-- `t` is `s` but for the count of free values, and for FBYTE after a TruncatedStream. -/
def AgreeUpToFree (s t : State) : Prop :=
  ∃ b c, t = s.withFree b c ∧ (s.fcause ≠ .truncatedStream → b = s.fbyte)

theorem AgreeUpToFree.observe_eq {s t : State} (h : AgreeUpToFree s t) : observe t = observe s := by
  obtain ⟨b, c, rfl, hb⟩ := h
  have hrecord : hostReadFaultRecord (s.withFree b c) = hostReadFaultRecord s := by
    by_cases hf : s.fcause = .truncatedStream
    · simp [hostReadFaultRecord, State.withFree, hf]
    · simp [hostReadFaultRecord, State.withFree, hb hf]
  unfold observe
  rw [hrecord]
  rfl

theorem AgreeUpToFree.emit {s t s' : State} {px : Pixel} (h : AgreeUpToFree s t) (hs : s.emit px = .next s') :
    ∃ t', t.emit px = .next t' ∧ AgreeUpToFree s' t' := by
  obtain ⟨b, c, rfl, hb⟩ := h
  obtain ⟨he, -⟩ := State.emit_spec hs
  exact ⟨_, State.emit_withFree b c hs, b, c, rfl, by rwa [he.fcause, he.fbyte]⟩

theorem AgreeUpToFree.takeFault {s t : State} (h : AgreeUpToFree s t) (r : Raised) :
    AgreeUpToFree (s.takeFault r) (t.takeFault r) := by
  obtain ⟨b, c, rfl, -⟩ := h
  cases r with
  | truncatedStream => exact ⟨_, _, rfl, fun hne => absurd rfl hne⟩
  | unrecognizedTag tag => exact ⟨tag, c, rfl, fun _ => rfl⟩

theorem AgreeUpToFree.runContinuation {s t s' : State} (h : AgreeUpToFree s t) (hs : runContinuation s = .next s') :
    ∃ t', runContinuation t = .next t' ∧ AgreeUpToFree s' t' := by
  obtain ⟨b, c, rfl, hb⟩ := h
  exact AgreeUpToFree.emit (s := { s with runLength := s.runLength - 1 }) ⟨b, c, rfl, hb⟩ hs

theorem AgreeUpToFree.chunkEffect {s t : State} (h : AgreeUpToFree s t) (i : Instr) :
    AgreeUpToFree ((chunkEffect i s).advanceCursor i.length) ((chunkEffect i t).advanceCursor i.length) := by
  obtain ⟨b, c, rfl, hb⟩ := h
  obtain ⟨rl, tb, heff⟩ := chunkEffect_frame i s
  rw [chunkEffect_withFree, heff]
  exact ⟨b, c, rfl, hb⟩

theorem AgreeUpToFree.exec {s t s' : State} {i : Instr} (h : AgreeUpToFree s t) (hs : exec i s = .next s') :
    ∃ t', exec i t = .next t' ∧ AgreeUpToFree s' t' := by
  have ⟨b, c, ht, _⟩ := h
  subst ht
  by_cases hp : s.pc + i.length ≤ s.len
  · rw [exec_eq, State.withChunk_present _ hp] at hs
    rw [exec_eq, State.withChunk_present (s := s.withFree b c) _ hp, chunkPixel_withFree]
    exact (h.chunkEffect i).emit hs
  · have hp' := Nat.lt_of_not_le hp
    rw [exec_truncated hp'] at hs
    cases hs
    exact ⟨_, exec_truncated (s := s.withFree b c) hp', h.takeFault _⟩

/-- One step keeps the agreement, whichever of its three kinds it is. -/
theorem AgreeUpToFree.step {s t s' : State} (h : AgreeUpToFree s t) (hs : step s = .next s') :
    ∃ t', step t = .next t' ∧ AgreeUpToFree s' t' := by
  have ⟨b, c, ht, _⟩ := h
  subst ht
  obtain ⟨hb, ⟨hr, -⟩ | ⟨hr, i, hf, hx⟩ | ⟨hr, e, hf, rfl⟩⟩ := step_cases hs
  · rw [step_inRun hb hr] at hs
    rw [step_inRun (s := s.withFree b c) hb hr]
    exact h.runContinuation hs
  · rw [step_chunk (s := s.withFree b c) hb hr hf]
    exact h.exec hx
  · exact ⟨_, step_fetchFault (s := s.withFree b c) hb hr hf, h.takeFault _⟩

theorem AgreeUpToFree.run {k : Nat} {s t s' : State} (h : AgreeUpToFree s t) (hs : run k s = .next s') :
    ∃ t', run k t = .next t' ∧ AgreeUpToFree s' t' := by
  induction k generalizing s t with
  | zero =>
    cases hs
    exact ⟨t, rfl, h⟩
  | succ k ih =>
    obtain ⟨u, hu, hrest⟩ := run_succ_cases hs
    obtain ⟨v, hv, huv⟩ := h.step hu
    rw [run_succ k hv]
    exact ih huv hrest

/-- What a start leaves of the state before it is `freeCount` alone. -/
theorem agreeUpToFree_of_hostStart {maxPixels : Option Nat} {req : StartRequest} {s1 s2 t1 t2 : State}
    (h1 : hostStart maxPixels req s1 = .next t1) (h2 : hostStart maxPixels req s2 = .next t2) :
    AgreeUpToFree t1 t2 := by
  obtain ⟨-, -, -, -, rfl⟩ := hostStart_cases h1
  obtain ⟨-, -, -, -, rfl⟩ := hostStart_cases h2
  exact ⟨0, s2.freeCount, rfl, fun _ => rfl⟩

/-- Settles O46: two starts with one request agree up to the free values, every step keeps that, and the host sees none
of them. -/
theorem sameDecodeSameOutcome : Obligations.SameDecodeSameOutcome := by
  intro maxPixels req s1 s2 t1 t2 u1 k h1 h2 hrun
  obtain ⟨u2, hrun2, hagree⟩ := (agreeUpToFree_of_hostStart h1 h2).run hrun
  exact ⟨u2, hrun2, hagree.observe_eq⟩

end Sys2Proof.Machine

/-! # O34, O35, O36, O27, O53: what a step does to the architectural state (`10_state.md`)

A step that goes on ends in one of two ways: it has written its cell (R80 to R82), or it has entered a fault (R124). Each
invariant of the state's fields is read off that split. -/

namespace Sys2Proof.Machine

/-! ## The two ends of a step -/

/-- A step from `s` to `t` that wrote its cell: the write-back's own effect, and the cursor left in the stream. -/
structure WroteCell (s t : State) : Prop where
  emitted : ∃ px, Emitted s t px
  pcGe : s.pc ≤ t.pc
  pcLe : s.pc ≤ s.len → t.pc ≤ s.len
  freeCount : t.freeCount = s.freeCount

theorem Continued.wroteCell {s t : State} (h : Continued s t) : WroteCell s t where
  emitted := ⟨_, h.emitted⟩
  pcGe := h.pc.ge
  pcLe hle := h.pc.trans_le hle
  freeCount := h.freeCount

theorem ChunkRan.wroteCell {i : Instr} {s t : State} (h : ChunkRan i s t) : WroteCell s t where
  emitted := ⟨_, h.emitted⟩
  pcGe := (Nat.le_add_right _ _).trans_eq h.pc.symm
  pcLe _ := h.pc.trans_le h.present
  freeCount := h.freeCount

theorem step_wroteCell_or_takeFault {s t : State} (h : step s = .next t) :
    WroteCell s t ∨ ∃ r, t = s.takeFault r := by
  obtain ⟨-, ⟨-, hc⟩ | ⟨-, i, -, hx⟩ | ⟨-, e, -, ht⟩⟩ := step_cases h
  · exact .inl hc.wroteCell
  · obtain hran | ⟨-, ht⟩ := exec_cases hx
    · exact .inl hran.wroteCell
    · exact .inr ⟨_, ht⟩
  · exact .inr ⟨_, ht⟩

/-- The write-back never makes STATUS FAULT (R82). -/
theorem Emitted.status_ne_fault {s t : State} {px : Pixel} (h : Emitted s t px) (hs : s.status ≠ .fault) :
    t.status ≠ .fault := by
  rw [h.status]
  split
  · decide
  · exact hs

/-- STATUS tells the two ends apart. -/
theorem WroteCell.status_ne_fault {s t : State} (h : WroteCell s t) (hstep : step s = .next t) : t.status ≠ .fault := by
  obtain ⟨px, he⟩ := h.emitted
  obtain ⟨hbusy, -⟩ := step_cases hstep
  exact he.status_ne_fault (by simp [hbusy])

/-! ## The fields' invariants -/

theorem step_keeps_configuration {s t : State} (h : step s = .next t) :
    t.width = s.width ∧ t.height = s.height ∧ t.input = s.input ∧ t.grid.size = s.grid.size := by
  obtain ⟨⟨px, he⟩, -, -, -⟩ | ⟨r, rfl⟩ := step_wroteCell_or_takeFault h
  · exact ⟨he.width, he.height, he.input, he.gridSize⟩
  · simp

theorem step_pc_ge {s t : State} (h : step s = .next t) : s.pc ≤ t.pc := by
  obtain hw | ⟨r, rfl⟩ := step_wroteCell_or_takeFault h
  · exact hw.pcGe
  · simp

theorem step_pc_le_length {s t : State} (h : step s = .next t) (hle : s.pc ≤ s.input.length) : t.pc ≤ s.input.length := by
  obtain hw | ⟨r, rfl⟩ := step_wroteCell_or_takeFault h
  · exact hw.pcLe hle
  · simpa using hle

theorem step_pc_of_fault {s t : State} (h : step s = .next t) (hf : t.status = .fault) : t.pc = s.pc := by
  obtain hw | ⟨r, rfl⟩ := step_wroteCell_or_takeFault h
  · exact absurd hf (hw.status_ne_fault h)
  · simp

theorem step_keeps_faultRecord {s t : State} (h : step s = .next t) (hf : t.status ≠ .fault) :
    t.fcause = s.fcause ∧ t.fbyte = s.fbyte ∧ t.frow = s.frow ∧ t.fcol = s.fcol ∧ t.freeCount = s.freeCount := by
  obtain ⟨⟨px, he⟩, -, -, hfree⟩ | ⟨r, rfl⟩ := step_wroteCell_or_takeFault h
  · exact ⟨he.fcause, he.fbyte, he.frow, he.fcol, hfree⟩
  · simp at hf

/-- Settles O27: a step is disabled outside BUSY. -/
theorem noStepUnlessBusy : Obligations.NoStepUnlessBusy := fun _ h => step_disabled h

/-- Settles O34: a cursor at most LEN is below every power of two above LEN, so the register does not cut it. -/
theorem cursorStaysInStream : Obligations.CursorStaysInStream := by
  intro s t h
  refine ⟨step_pc_ge h, fun hle => ?_, step_pc_of_fault h, fun bits hle hbits => ?_⟩
  · obtain ⟨-, -, hinput, -⟩ := step_keeps_configuration h
    rw [hinput]
    exact step_pc_le_length h hle
  · rw [BitVec.toNat_ofNat, Nat.mod_eq_of_lt ((step_pc_le_length h hle).trans_lt hbits)]

/-- Settles O35: neither end of a step writes the configuration. -/
theorem stepKeepsConfiguration : Obligations.StepKeepsConfiguration := fun _ _ h => step_keeps_configuration h

/-- Settles O36: of the two ends only the fault entry writes the record, and it leaves STATUS FAULT. -/
theorem faultRecordOnlyByFaultEntry : Obligations.FaultRecordOnlyByFaultEntry := fun _ _ h hf => step_keeps_faultRecord h hf

/-- Settles O53: one case per STATUS and per FCAUSE; the record's other fields are read as they are. -/
theorem codesTheHostReads : Obligations.CodesTheHostReads := by
  intro s
  refine ⟨?_, ?_, rfl, rfl, rfl⟩
  · rw [hostReadStatus]
    cases s.status <;> rfl
  · rw [hostReadFaultRecord]
    cases s.fcause <;> rfl

end Sys2Proof.Machine

/-! # O14, O15, O52, O54: the stream, the Grid and the pixel bus (`20_memory.md`) -/

namespace Sys2Proof.Machine

/-- Settles O14: the bounds check of `MemRead` decides between the whole read and TruncatedStream. -/
theorem memReadWholeOrTruncated : Obligations.MemReadWholeOrTruncated := by
  intro s a n _
  refine ⟨fun h => ⟨_, State.memRead_some h, ?_, fun k hk => ?_⟩, State.memRead_none, fun h body => ?_⟩
  · rw [List.length_take, List.length_drop]
    omega
  · rw [List.getElem?_take_of_lt hk, List.getElem?_drop]
  · exact ⟨_, State.withChunk_truncated body h, s.takeFault_truncated⟩

/-! ## The position in the Grid -/

/-- The position is a cell of the image. -/
def State.InImage (s : State) : Prop := s.row.toNat < s.height.toNat ∧ s.col.toNat < s.width.toNat

/-- With a row below the last there is room for the whole row, so the cell index is below WIDTH × HEIGHT (R35). -/
theorem State.InImage.linear_lt {s : State} (h : s.InImage) : s.linear < s.pixels := by
  obtain ⟨hrow, hcol⟩ := h
  calc s.row.toNat * s.width.toNat + s.col.toNat
      < s.row.toNat * s.width.toNat + s.width.toNat := Nat.add_lt_add_left hcol _
    _ = (s.row.toNat + 1) * s.width.toNat := (Nat.succ_mul _ _).symm
    _ ≤ s.height.toNat * s.width.toNat := Nat.mul_le_mul_right _ hrow
    _ = s.pixels := Nat.mul_comm _ _

theorem State.pixels_lt (s : State) : s.pixels < 2 ^ 64 :=
  calc s.width.toNat * s.height.toNat
      < 2 ^ 32 * 2 ^ 32 := Nat.mul_lt_mul'' s.width.isLt s.height.isLt
    _ = 2 ^ 64 := rfl

/-- 64 bits hold the cell index of every position of the image (R35). -/
theorem State.InImage.linear_eq_toNat {s : State} (h : s.InImage) :
    s.linear = (s.row.setWidth 64 * s.width.setWidth 64 + s.col.setWidth 64).toNat := by
  have hlt : s.row.toNat * s.width.toNat + s.col.toNat < 2 ^ 64 := h.linear_lt.trans s.pixels_lt
  rw [BitVec.toNat_add, BitVec.toNat_mul, Nat.mod_add_mod, BitVec.toNat_setWidth_of_le (by decide),
    BitVec.toNat_setWidth_of_le (by decide), BitVec.toNat_setWidth_of_le (by decide), Nat.mod_eq_of_lt hlt, State.linear]

/-- Settles O15: a write inside the Grid answers, and what it answers is the one cell changed. -/
theorem gridWriteIsOneCell : Obligations.GridWriteIsOneCell := by
  refine ⟨fun m k p hk => ?_, fun s hrow hcol => ?_⟩
  · obtain ⟨m', hm⟩ := Memory.write_some p hk
    obtain ⟨-, hsize, hread⟩ := Memory.write_spec hm
    exact ⟨m', hm, hsize, hread⟩
  · have himage : s.InImage := ⟨hrow, hcol⟩
    exact ⟨himage.linear_eq_toNat, himage.linear_lt⟩

/-! ## The host's view of the Grid -/

theorem hostReadCell_done {s : State} (h : s.status = .done) (k : Nat) : hostReadCell k s = .ok (s.grid.read k) := by
  simp [hostReadCell, h]

theorem status_of_hostReadCell_ok {s : State} {k : Nat} {v : Option Pixel} (h : hostReadCell k s = .ok v) :
    s.status = .done := by
  unfold hostReadCell at h
  cases hs : s.status
  case done => rfl
  all_goals simp [hs] at h

theorem observe_done {s : State} (h : s.status = .done) : observe s = .done s.grid := by simp [observe, h]

theorem observe_fault {s : State} (h : s.status = .fault) : observe s = .fault (hostReadFaultRecord s) := by
  simp [observe, h]

theorem status_of_observe_done {s : State} {g : Memory} (h : observe s = .done g) : s.status = .done := by
  unfold observe at h
  cases hs : s.status
  case done => rfl
  all_goals simp [hs] at h

theorem status_of_observe_fault {s : State} {r : FaultRecord} (h : observe s = .fault r) : s.status = .fault := by
  unfold observe at h
  cases hs : s.status
  case fault => rfl
  all_goals simp [hs] at h

/-- Settles O52: STATUS alone selects what the host is answered, one answer for each of its values. -/
theorem gridIsReadOnlyAtDone : Obligations.GridIsReadOnlyAtDone := fun _ =>
  ⟨fun k h => hostReadCell_done h k, fun _ _ => status_of_hostReadCell_ok, observe_done, observe_fault,
    fun _ => status_of_observe_done, fun _ => status_of_observe_fault⟩

/-! ## The bus form of a Pixel -/

theorem toNat_append_eq_add {m n : Nat} (x : BitVec m) (y : BitVec n) :
    (x ++ y).toNat = x.toNat * 2 ^ n + y.toNat := by
  rw [BitVec.toNat_append, ← Nat.shiftLeft_add_eq_or_of_lt y.isLt, Nat.shiftLeft_eq]

theorem packPixel_toNat (p : Pixel) :
    (packPixel p).toNat = p.r.toNat * 2 ^ 24 + p.g.toNat * 2 ^ 16 + p.b.toNat * 2 ^ 8 + p.a.toNat := by
  simp only [packPixel, toNat_append_eq_add]
  omega

theorem unpackPixel_packPixel (p : Pixel) : unpackPixel (packPixel p) = p := by
  obtain ⟨r, g, b, a⟩ := p
  simp only [unpackPixel, Pixel.mk.injEq, ← BitVec.toNat_inj, BitVec.extractLsb'_toNat, packPixel_toNat,
    Nat.shiftRight_eq_div_pow]
  omega

/-- Settles O54: each channel is one byte of the packed number. -/
theorem pixelBusForm : Obligations.PixelBusForm := fun p => ⟨packPixel_toNat p, unpackPixel_packPixel p⟩

end Sys2Proof.Machine

/-! # O44: the cells are written once each, in order (R36)

The position counts the steps that wrote a cell, and the cells that hold a value are those before it: an invariant of
every step, from the start on. -/

namespace Sys2Proof.Machine

/-! ## One write-back -/

theorem toNat_add_one_of_lt {x y : Word} (h : x.toNat < y.toNat) : (x + 1).toNat = x.toNat + 1 := by
  bv_omega

/-- Where a write-back leaves the position: at the next cell of the row, or at the head of the next row (R81). -/
theorem Emitted.position {s t : State} {px : Pixel} (h : Emitted s t px) (himage : s.InImage) :
    (s.col.toNat + 1 < s.width.toNat ∧ t.row.toNat = s.row.toNat ∧ t.col.toNat = s.col.toNat + 1) ∨
    (s.col.toNat + 1 = s.width.toNat ∧ t.row.toNat = s.row.toNat + 1 ∧ t.col.toNat = 0) := by
  obtain ⟨hrow, hcol⟩ := himage
  have hwrap : s.col + 1 = s.width ↔ s.col.toNat + 1 = s.width.toNat := by
    rw [← BitVec.toNat_inj, toNat_add_one_of_lt hcol]
  rw [h.row, h.col]
  by_cases hend : s.col.toNat + 1 = s.width.toNat
  · rw [if_pos (hwrap.mpr hend), if_pos (hwrap.mpr hend)]
    exact .inr ⟨hend, toNat_add_one_of_lt hrow, rfl⟩
  · rw [if_neg (hwrap.not.mpr hend), if_neg (hwrap.not.mpr hend)]
    exact .inl ⟨Nat.lt_of_le_of_ne hcol hend, rfl, toNat_add_one_of_lt hcol⟩

/-- A write-back moves the position to the next cell in row-major order (R81). -/
theorem Emitted.linear {s t : State} {px : Pixel} (h : Emitted s t px) (himage : s.InImage) :
    t.linear = s.linear + 1 := by
  unfold State.linear
  rw [h.width]
  obtain ⟨-, hr, hc⟩ | ⟨hend, hr, hc⟩ := h.position himage
  · rw [hr, hc, Nat.add_assoc]
  · rw [hr, hc, Nat.succ_mul, Nat.add_zero, Nat.add_assoc, hend]

/-- A write-back that does not make STATUS DONE leaves the position in the image (R82). -/
theorem Emitted.inImage {s t : State} {px : Pixel} (h : Emitted s t px) (himage : s.InImage) (hs : t.status ≠ .done) :
    t.InImage := by
  have hne : t.row.toNat ≠ s.height.toNat := fun heq => hs (by rw [h.status, if_pos (BitVec.eq_of_toNat_eq heq)])
  have hpos := h.position himage
  obtain ⟨hrow, hcol⟩ := himage
  unfold State.InImage
  rw [h.width, h.height]
  omega

/-- A write-back in a decode that makes STATUS DONE leaves the position at row HEIGHT, column 0 (R82). -/
theorem Emitted.position_of_done {s t : State} {px : Pixel} (h : Emitted s t px) (himage : s.InImage)
    (hs : s.status ≠ .done) (ht : t.status = .done) : t.row = s.height ∧ t.col = 0 := by
  have hrow : t.row = s.height := by
    by_contra hne
    rw [h.status, if_neg hne] at ht
    exact hs ht
  refine ⟨hrow, BitVec.eq_of_toNat_eq ?_⟩
  have hlast : t.row.toNat = s.height.toNat := congrArg BitVec.toNat hrow
  obtain ⟨-, hr, -⟩ | ⟨-, -, hc⟩ := h.position himage
  · exact absurd (hr.symm.trans hlast) himage.1.ne
  · exact hc

/-! ## The invariant -/

/-- R36 between the steps of a decode: the cells that hold a value are exactly those before the position, the last of
them holds `last_pix`, and the position has reached the end of the image exactly where STATUS says so. -/
structure CellsInOrder (s : State) : Prop where
  inImage : s.status = .busy → s.InImage
  atEnd : s.status = .done → s.linear = s.pixels
  written : ∀ i, (s.grid.read i).isSome = true ↔ i < s.linear
  last : 0 < s.linear → s.grid.read (s.linear - 1) = some s.lastPix

theorem decodeStart_cellsInOrder {w h : Word} (hw : 0 < w.toNat) (hh : 0 < h.toNat) (s : State) (input : List Byte)
    (n : Nat) : CellsInOrder (s.decodeStart w h input n) where
  inImage _ := ⟨hh, hw⟩
  atEnd hdone := by cases hdone
  written i := by simp [State.decodeStart, State.linear]
  last hpos := by simp [State.decodeStart, State.linear] at hpos

theorem Emitted.cellsInOrder {s t : State} {px : Pixel} (h : Emitted s t px) (hs : CellsInOrder s)
    (hbusy : s.status = .busy) : CellsInOrder t := by
  have himage := hs.inImage hbusy
  have hlin := h.linear himage
  refine ⟨fun ht => h.inImage himage (by simp [ht]), fun ht => ?_, fun i => ?_, fun _ => ?_⟩
  · obtain ⟨hrow, hcol⟩ := h.position_of_done himage (by simp [hbusy]) ht
    simp [State.linear, State.pixels, hrow, hcol, h.height, Nat.mul_comm]
  · rw [h.cells, hlin]
    split
    · simp [*]
    · rw [hs.written]
      omega
  · rw [h.cells, hlin, h.lastPix, if_pos (Nat.add_sub_cancel _ _)]

/-- A fault entry moves neither the position nor the Grid (R124). -/
theorem takeFault_cellsInOrder {s : State} (hs : CellsInOrder s) (r : Raised) : CellsInOrder (s.takeFault r) where
  inImage hb := by simp at hb
  atEnd hd := by simp at hd
  written := by simpa [State.linear] using hs.written
  last := by simpa [State.linear] using hs.last

theorem step_keeps_cellsInOrder {s t : State} (hs : CellsInOrder s) (h : step s = .next t) : CellsInOrder t := by
  obtain ⟨hbusy, -⟩ := step_cases h
  obtain ⟨⟨px, he⟩, -, -, -⟩ | ⟨r, rfl⟩ := step_wroteCell_or_takeFault h
  · exact he.cellsInOrder hs hbusy
  · exact takeFault_cellsInOrder hs r

/-! ## Runs -/

/-- A run that has not ended in FAULT did not start there: no step leaves FAULT (R125). -/
theorem status_ne_fault_of_run {k : Nat} {s t : State} (h : run k s = .next t) (ht : t.status ≠ .fault) :
    s.status ≠ .fault := by
  cases k with
  | zero =>
    cases h
    exact ht
  | succ k =>
    obtain ⟨u, hu, -⟩ := run_succ_cases h
    obtain ⟨hbusy, -⟩ := step_cases hu
    simp [hbusy]

theorem step_linear {s t : State} (hs : CellsInOrder s) (h : step s = .next t) (ht : t.status ≠ .fault) :
    t.linear = s.linear + 1 := by
  obtain ⟨hbusy, -⟩ := step_cases h
  obtain ⟨⟨px, he⟩, -, -, -⟩ | ⟨r, rfl⟩ := step_wroteCell_or_takeFault h
  · exact he.linear (hs.inImage hbusy)
  · simp at ht

/-- The position counts the steps taken. -/
theorem run_linear {k : Nat} {s t : State} (hs : CellsInOrder s) (h : run k s = .next t) (ht : t.status ≠ .fault) :
    t.linear = s.linear + k := by
  induction k generalizing s with
  | zero =>
    cases h
    rfl
  | succ k ih =>
    obtain ⟨u, hu, hrest⟩ := run_succ_cases h
    have hstep := step_linear hs hu (status_ne_fault_of_run hrest ht)
    have hrun := ih (step_keeps_cellsInOrder hs hu) hrest
    omega

theorem run_keeps_pixels {k : Nat} {s t : State} (h : run k s = .next t) : t.pixels = s.pixels := by
  refine run_keeps (P := fun u => u.pixels = s.pixels) (fun u v hu hstep => ?_) rfl h
  obtain ⟨hw, hh, -⟩ := step_keeps_configuration hstep
  rw [← hu, State.pixels, State.pixels, hw, hh]

/-- `u` is a later state of the decode that was in `s`: the cells written by then are as they were. -/
structure Extends (s u : State) : Prop where
  inOrder : CellsInOrder u
  linearLe : s.linear ≤ u.linear
  kept : ∀ i, i < s.linear → u.grid.read i = s.grid.read i

/-- The step writes the cell at the position, and that is none of those before it. -/
theorem Extends.step {s u v : State} (h : Extends s u) (hstep : step u = .next v) : Extends s v := by
  have hle := h.linearLe
  have hinOrder := step_keeps_cellsInOrder h.inOrder hstep
  obtain ⟨hbusy, -⟩ := step_cases hstep
  obtain ⟨⟨px, he⟩, -, -, -⟩ | ⟨r, rfl⟩ := step_wroteCell_or_takeFault hstep
  · refine ⟨hinOrder, ?_, fun i hi => ?_⟩
    · rw [he.linear (h.inOrder.inImage hbusy)]
      exact Nat.le_succ_of_le hle
    · rw [he.cells, if_neg (hi.trans_le hle).ne, h.kept i hi]
  · exact ⟨hinOrder, by simpa [State.linear] using hle, fun i hi => by rw [State.takeFault_grid, h.kept i hi]⟩

theorem run_extends {k : Nat} {s u : State} (hs : CellsInOrder s) (h : run k s = .next u) : Extends s u :=
  run_keeps (fun _ _ => Extends.step) ⟨hs, Nat.le_refl _, fun _ _ => rfl⟩ h

/-- Settles O44: the start meets the invariant, so every state of the decode does, and the position counts its steps. -/
theorem cellsAreWrittenOnceInOrder : Obligations.CellsAreWrittenOnceInOrder := by
  intro maxPixels req s s0 t u j k hstart hj hk
  obtain ⟨-, hw, hh, -, rfl⟩ := hostStart_cases hstart
  have hinit := decodeStart_cellsInOrder hw hh s req.input req.gridCells
  have ht : CellsInOrder t := (run_extends hinit hj).inOrder
  refine ⟨fun hf => ?_, ht.written, (run_extends ht hk).kept, fun hd i hi => ?_⟩
  · have hlin : t.linear = j := by simpa [State.linear, State.decodeStart] using run_linear hinit hj hf
    exact ⟨hlin, hlin ▸ ht.last⟩
  · have hend : t.linear = req.width.toNat * req.height.toNat := (ht.atEnd hd).trans (run_keeps_pixels hj)
    obtain ⟨px, hpx⟩ := Option.isSome_iff_exists.mp ((ht.written i).mpr (hend ▸ hi))
    exact ⟨px, by rw [hostReadCell_done hd, hpx]⟩

end Sys2Proof.Machine

/-! # O45: bytes at or after the final `pc` do not change a result (R34)

A step looks at the stream only through the chunk it decodes, and that chunk lies before the cursor it leaves. So a step
that takes no fault goes the same way in every stream that has the bytes before that cursor. -/

namespace Sys2Proof.Machine

/-! ## What a chunk's decoding depends on -/

/-- The operands of a chunk are read from its own bytes, and whatever follows them is left over. -/
theorem decodeOperands_local {op : Op} {tag : Byte} {tail rest : List Byte} {i : Instr}
    (h : decodeOperands op tag tail = .ok (i, rest)) :
    ∃ operands, tail = operands ++ rest ∧ operands.length + 1 = i.length ∧
      ∀ rest', decodeOperands op tag (operands ++ rest') = .ok (i, rest') := by
  cases op with
  | rgb =>
    replace h : decodeRgb tail = .ok (i, rest) := h
    unfold decodeRgb at h
    split at h
    · next r g b _ =>
      cases h
      exact ⟨[r, g, b], rfl, rfl, fun _ => rfl⟩
    · cases h
  | rgba =>
    replace h : decodeRgba tail = .ok (i, rest) := h
    unfold decodeRgba at h
    split at h
    · next r g b a _ =>
      cases h
      exact ⟨[r, g, b, a], rfl, rfl, fun _ => rfl⟩
    · cases h
  | luma =>
    replace h : decodeLuma tag tail = .ok (i, rest) := h
    unfold decodeLuma at h
    split at h
    · next b1 _ =>
      cases h
      exact ⟨[b1], rfl, rfl, fun _ => rfl⟩
    · cases h
  | index | diff | run =>
    cases h
    exact ⟨[], rfl, rfl, fun _ => rfl⟩

/-- A chunk is decoded from its own bytes: they head the stream, and whatever follows them is left over. -/
theorem decode_local {bytes rest : List Byte} {i : Instr} (h : decode bytes = .ok (i, rest)) :
    ∃ chunk, bytes = chunk ++ rest ∧ chunk.length = i.length ∧ ∀ rest', decode (chunk ++ rest') = .ok (i, rest') := by
  cases bytes with
  | nil => cases h
  | cons tag tail =>
    simp only [decode] at h
    split at h
    · next op hop =>
      obtain ⟨operands, rfl, hlen, hlocal⟩ := decodeOperands_local h
      exact ⟨tag :: operands, rfl, hlen, fun rest' => by simp [decode, hop, hlocal]⟩
    · cases h

theorem State.fetch_eq_ok_iff {s : State} {i : Instr} :
    s.fetch = .ok i ↔ ∃ rest, decode (s.input.drop s.pc) = .ok (i, rest) := by
  unfold State.fetch
  split <;> simp [*]

/-! ## The same state on another stream -/

/-- `s` with another stream. -/
def State.withInput (s : State) (other : List Byte) : State := { s with input := other }

theorem State.advancePosition_withInput (s : State) (other : List Byte) :
    (s.withInput other).advancePosition = s.advancePosition.withInput other := by
  rw [State.advancePosition, State.advancePosition, apply_ite (State.withInput · other)]
  rfl

theorem State.terminate_withInput (s : State) (other : List Byte) :
    (s.withInput other).terminate = s.terminate.withInput other := by
  rw [State.terminate, State.terminate, apply_ite (State.withInput · other)]
  rfl

theorem State.emit_withInput {s t : State} {px : Pixel} (other : List Byte) (h : s.emit px = .next t) :
    (s.withInput other).emit px = .next (t.withInput other) := by
  obtain ⟨-, -, -, -, -, hlt, -⟩ := State.emit_spec h
  obtain ⟨g, hg⟩ := Memory.write_some px hlt
  rw [State.emit_of_write hg] at h
  cases h
  rw [State.emit_of_write (s := s.withInput other) hg, ← State.terminate_withInput, ← State.advancePosition_withInput]
  rfl

theorem chunkPixel_withInput (i : Instr) (s : State) (other : List Byte) :
    chunkPixel i (s.withInput other) = chunkPixel i s := by
  cases i <;> rfl

theorem chunkEffect_withInput (i : Instr) (s : State) (other : List Byte) :
    chunkEffect i (s.withInput other) = (chunkEffect i s).withInput other := by
  cases i <;> rfl

theorem runContinuation_withInput {s t : State} (other : List Byte) (h : runContinuation s = .next t) :
    runContinuation (s.withInput other) = .next (t.withInput other) :=
  State.emit_withInput (s := { s with runLength := s.runLength - 1 }) other h

/-- A chunk runs the same way in every stream that holds it. -/
theorem exec_withInput {i : Instr} {s t : State} {other : List Byte} (h : exec i s = .next t)
    (hp : s.pc + i.length ≤ s.len) (hother : s.pc + i.length ≤ other.length) :
    exec i (s.withInput other) = .next (t.withInput other) := by
  rw [exec_eq, State.withChunk_present _ hp] at h
  rw [exec_eq, State.withChunk_present (s := s.withInput other) _ hother, chunkPixel_withInput, chunkEffect_withInput]
  exact State.emit_withInput other h

/-- A stream that has the bytes up to the end of the chunk at the cursor gives that chunk. -/
theorem fetch_withInput {s : State} {i : Instr} {other : List Byte} (h : s.fetch = .ok i)
    (hpre : s.input.take (s.pc + i.length) <+: other) : (s.withInput other).fetch = .ok i := by
  obtain ⟨rest, hdec⟩ := State.fetch_eq_ok_iff.mp h
  obtain ⟨chunk, hbytes, hlen, hlocal⟩ := decode_local hdec
  obtain ⟨extra, hextra⟩ := hpre
  have hchunk : (s.input.take (s.pc + i.length)).drop s.pc = chunk := by
    rw [List.drop_take, Nat.add_sub_cancel_left, hbytes, ← hlen, List.take_left]
  refine State.fetch_eq_ok_iff.mpr ⟨extra.drop (s.pc - (s.input.take (s.pc + i.length)).length), ?_⟩
  show decode (other.drop s.pc) = _
  rw [← hextra, List.drop_append, hchunk, hlocal]

/-- A step that takes no fault goes the same way in every stream that has the bytes before the cursor it leaves. -/
theorem step_withInput {s t : State} {other : List Byte} (h : step s = .next t) (ht : t.status ≠ .fault)
    (hpre : s.input.take t.pc <+: other) : step (s.withInput other) = .next (t.withInput other) := by
  obtain ⟨hb, ⟨hr, -⟩ | ⟨hr, i, hf, hx⟩ | ⟨-, e, -, rfl⟩⟩ := step_cases h
  · rw [step_inRun hb hr] at h
    rw [step_inRun (s := s.withInput other) hb hr]
    exact runContinuation_withInput other h
  · obtain hran | ⟨-, rfl⟩ := exec_cases hx
    · have hp := hran.present
      rw [hran.pc] at hpre
      have hother : s.pc + i.length ≤ other.length := by
        rw [← List.length_take_of_le hp]
        exact hpre.length_le
      rw [step_chunk (s := s.withInput other) hb hr (fetch_withInput hf hpre)]
      exact exec_withInput hx hp hother
    · simp at ht
  · simp at ht

theorem run_pc_ge {k : Nat} {s t : State} (h : run k s = .next t) : s.pc ≤ t.pc :=
  run_keeps (P := fun u => s.pc ≤ u.pc) (fun _ _ hle hstep => hle.trans (step_pc_ge hstep)) (Nat.le_refl _) h

theorem run_keeps_input {k : Nat} {s t : State} (h : run k s = .next t) : t.input = s.input := by
  refine run_keeps (P := fun u => u.input = s.input) (fun u v hu hstep => ?_) rfl h
  obtain ⟨-, -, hinput, -⟩ := step_keeps_configuration hstep
  rw [hinput, hu]

/-- The cursor never decreases, so the bytes before the last cursor are all that the steps on the way looked at. -/
theorem run_withInput {k : Nat} {s t : State} {other : List Byte} (h : run k s = .next t) (ht : t.status ≠ .fault)
    (hpre : s.input.take t.pc <+: other) : run k (s.withInput other) = .next (t.withInput other) := by
  induction k generalizing s with
  | zero =>
    cases h
    rfl
  | succ k ih =>
    obtain ⟨u, hu, hrest⟩ := run_succ_cases h
    have hstep : s.input.take u.pc <+: other := (List.take_prefix_take_left (run_pc_ge hrest)).trans hpre
    rw [run_succ k (step_withInput hu (status_ne_fault_of_run hrest ht) hstep)]
    obtain ⟨-, -, hinput, -⟩ := step_keeps_configuration hu
    exact ih hrest (hinput ▸ hpre)

/-- Settles O45: the stream with more bytes and the stream that agrees before the final `pc` both have the bytes there. -/
theorem trailingBytesDoNotMatter : Obligations.TrailingBytesDoNotMatter := by
  intro k s t h hdone
  have hne : t.status ≠ .fault := by simp [hdone]
  refine ⟨fun extra => ?_, fun other hother => run_withInput h hne (hother ▸ List.take_prefix _ _)⟩
  rw [run_keeps_input h]
  exact run_withInput h hne ((List.take_prefix _ _).trans (List.prefix_append _ _))

end Sys2Proof.Machine

/-! # O1 to O7, O30, O40: the encoding (`30_encoding.md`)

Every byte is a tag of the operation in whose range of the tag map it lies (R51, R152), and a chunk's encoding is such a
tag followed by the operand bytes. So the decoder gives an encoded chunk back, reads nothing but encodings, and finds an
operation in every tag; no step can raise UnrecognizedTag. -/

namespace Sys2Proof

open Machine

/-! ## The tag map -/

theorem tagPrefix_toNat (tag : Byte) : (tag.extractLsb' 6 2).toNat = tag.toNat / 64 := by
  rw [BitVec.extractLsb'_toNat, Nat.shiftRight_eq_div_pow]
  omega

/-- The tags of an operation (R51, R152). -/
def Op.HasTag (tag : Byte) : Op → Prop
  | .index => tag.toNat ≤ 0x3F
  | .diff => 0x40 ≤ tag.toNat ∧ tag.toNat ≤ 0x7F
  | .luma => 0x80 ≤ tag.toNat ∧ tag.toNat ≤ 0xBF
  | .run => 0xC0 ≤ tag.toNat ∧ tag.toNat ≤ 0xFD
  | .rgb => tag.toNat = 0xFE
  | .rgba => tag.toNat = 0xFF

theorem exists_hasTag (tag : Byte) : ∃ op : Op, op.HasTag tag := by
  have hlt := tag.isLt
  obtain h | h | h | h | h | h :
      tag.toNat ≤ 0x3F ∨ (0x40 ≤ tag.toNat ∧ tag.toNat ≤ 0x7F) ∨ (0x80 ≤ tag.toNat ∧ tag.toNat ≤ 0xBF) ∨
        (0xC0 ≤ tag.toNat ∧ tag.toNat ≤ 0xFD) ∨ tag.toNat = 0xFE ∨ tag.toNat = 0xFF := by omega
  · exact ⟨.index, h⟩
  · exact ⟨.diff, h⟩
  · exact ⟨.luma, h⟩
  · exact ⟨.run, h⟩
  · exact ⟨.rgb, h⟩
  · exact ⟨.rgba, h⟩

/-- The two-bit prefix counts the quarters of the byte range, and the last quarter loses its two top values to the
exact matches before it. -/
theorem classify_of_hasTag {op : Op} {tag : Byte} (h : op.HasTag tag) : classify tag = some op := by
  simp only [classify, ← BitVec.toNat_inj, tagPrefix_toNat, BitVec.toNat_ofNat]
  cases op <;> simp only [Op.HasTag] at h
  case rgb => rw [if_pos h]
  case rgba => rw [if_neg (by omega), if_pos h]
  case index => rw [if_neg (by omega), if_neg (by omega), if_pos (by omega)]
  case diff => rw [if_neg (by omega), if_neg (by omega), if_neg (by omega), if_pos (by omega)]
  case luma => rw [if_neg (by omega), if_neg (by omega), if_neg (by omega), if_neg (by omega), if_pos (by omega)]
  case run =>
    rw [if_neg (by omega), if_neg (by omega), if_neg (by omega), if_neg (by omega), if_neg (by omega),
      if_pos (by omega)]

/-- Settles O6: each range is the tags of one operation. -/
theorem tagMapByRange : Obligations.TagMapByRange := by
  intro tag
  have hlt := tag.isLt
  split_ifs with hindex hdiff hluma hrun hrgb
  · exact classify_of_hasTag (op := .index) hindex
  · exact classify_of_hasTag (op := .diff) ⟨by omega, hdiff⟩
  · exact classify_of_hasTag (op := .luma) ⟨by omega, hluma⟩
  · exact classify_of_hasTag (op := .run) ⟨by omega, hrun⟩
  · exact classify_of_hasTag (op := .rgb) hrgb
  · exact classify_of_hasTag (op := .rgba) (show tag.toNat = 0xFF by omega)

/-! ## Fields of a byte, put together and taken apart -/

theorem tagField_append (p : BitVec 2) (field : BitVec 6) : tagField (p ++ field) = field :=
  BitVec.extractLsb'_append_eq_right

theorem append_tagField {p : BitVec 2} {tag : Byte} (h : tag.toNat / 64 = p.toNat) : p ++ tagField tag = tag := by
  have hprefix : tag.extractLsb' 6 2 = p := BitVec.eq_of_toNat_eq ((tagPrefix_toNat tag).trans h)
  rw [← hprefix]
  exact (BitVec.extractLsb'_append_extractLsb'_eq_extractLsb' rfl).trans BitVec.extractLsb'_eq_self

theorem tagField_toNat (tag : Byte) : (tagField tag).toNat = tag.toNat % 64 := by
  rw [tagField, BitVec.extractLsb'_toNat, Nat.shiftRight_zero]

theorem diffTag_toNat (vr vg vb : BitVec 2) :
    (diffTag vr vg vb).toNat = 64 + 16 * vr.toNat + 4 * vg.toNat + vb.toNat := by
  simp only [diffTag, toNat_append_eq_add, BitVec.toNat_ofNat]
  omega

theorem diffFields_diffTag (vr vg vb : BitVec 2) : diffFields (diffTag vr vg vb) = (vr, vg, vb) := by
  simp only [diffFields, Prod.mk.injEq, ← BitVec.toNat_inj, BitVec.extractLsb'_toNat, diffTag_toNat,
    Nat.shiftRight_eq_div_pow]
  omega

theorem encode_decodeDiff {tag : Byte} (h : Op.diff.HasTag tag) : encode (decodeDiff tag) = [tag] := by
  simp only [Op.HasTag] at h
  simp only [decodeDiff, encode, diffFields, List.cons.injEq, and_true, ← BitVec.toNat_inj, diffTag_toNat,
    BitVec.extractLsb'_toNat, Nat.shiftRight_eq_div_pow]
  omega

theorem lumaFields_append (vrg vbg : BitVec 4) : lumaFields (vrg ++ vbg) = (vrg, vbg) :=
  Prod.ext BitVec.extractLsb'_append_eq_left BitVec.extractLsb'_append_eq_right

theorem append_lumaFields (b1 : Byte) : (lumaFields b1).1 ++ (lumaFields b1).2 = b1 :=
  (BitVec.extractLsb'_append_extractLsb'_eq_extractLsb' rfl).trans BitVec.extractLsb'_eq_self

/-! ## Decoding what is encoded -/

/-- The first byte of a chunk's encoding. -/
def Instr.tag : Instr → Byte
  | .rgb _ _ _ => 0xFE#8
  | .rgba _ _ _ _ => 0xFF#8
  | .index i => 0b00#2 ++ i
  | .diff vr vg vb => diffTag vr vg vb
  | .luma vg _ _ => 0b10#2 ++ vg
  | .run vrun => 0b11#2 ++ vrun

/-- The bytes of a chunk's encoding after the tag. -/
def Instr.operandBytes : Instr → List Byte
  | .rgb r g b => [r, g, b]
  | .rgba r g b a => [r, g, b, a]
  | .luma _ vrg vbg => [vrg ++ vbg]
  | .index _ | .diff _ _ _ | .run _ => []

theorem encode_eq_cons (i : Instr) : encode i = i.tag :: i.operandBytes := by cases i <;> rfl

/-- RUN's stored values 62 and 63 would be the tags of RGB and RGBA (R58). -/
theorem hasTag_of_wellFormed {i : Instr} (h : i.wellFormed = true) : i.op.HasTag i.tag := by
  cases i with
  | rgb | rgba => rfl
  | index | luma =>
    simp only [Op.HasTag, Instr.op, Instr.tag, toNat_append_eq_add, BitVec.toNat_ofNat]
    omega
  | diff =>
    simp only [Op.HasTag, Instr.op, Instr.tag, diffTag_toNat]
    omega
  | run vrun =>
    have hle : vrun.toNat ≤ 61 := of_decide_eq_true h
    simp only [Op.HasTag, Instr.op, Instr.tag, toNat_append_eq_add, BitVec.toNat_ofNat]
    omega

theorem decodeOperands_operandBytes (i : Instr) (rest : List Byte) :
    decodeOperands i.op i.tag (i.operandBytes ++ rest) = .ok (i, rest) := by
  cases i with
  | rgb | rgba => rfl
  | index | run => simp [Instr.op, Instr.tag, Instr.operandBytes, decodeOperands, tagField_append]
  | diff => simp [Instr.op, Instr.tag, Instr.operandBytes, decodeOperands, decodeDiff, diffFields_diffTag]
  | luma =>
    simp [Instr.op, Instr.tag, Instr.operandBytes, decodeOperands, decodeLuma, tagField_append, lumaFields_append]

theorem decode_cons {tag : Byte} {op : Op} (h : op.HasTag tag) (tail : List Byte) :
    decode (tag :: tail) = decodeOperands op tag tail := by
  simp [decode, classify_of_hasTag h]

theorem decode_encode {i : Instr} (h : i.wellFormed = true) (rest : List Byte) :
    decode (encode i ++ rest) = .ok (i, rest) := by
  rw [encode_eq_cons, List.cons_append, decode_cons (hasTag_of_wellFormed h), decodeOperands_operandBytes]

/-- Settles O3: the tag selects the operation again, and its operand decoder undoes each field. -/
theorem decodeOfEncodeIsIdentity : Obligations.DecodeOfEncodeIsIdentity := fun _ rest h => decode_encode h rest

/-- Settles O2: the bytes of each format table are the encoding of the chunk. -/
theorem formatTablesDecode : Obligations.FormatTablesDecode := fun rest =>
  ⟨fun r g b => decode_encode (i := .rgb r g b) rfl rest,
    fun r g b a => decode_encode (i := .rgba r g b a) rfl rest,
    fun i => decode_encode (i := .index i) rfl rest,
    fun vr vg vb => decode_encode (i := .diff vr vg vb) rfl rest,
    fun vg vrg vbg => decode_encode (i := .luma vg vrg vbg) rfl rest,
    fun vrun hle => decode_encode (i := .run vrun) (decide_eq_true hle) rest⟩

/-- Settles O1: each word is the encoding of its chunk. -/
theorem notationExamplesDecode : Obligations.NotationExamplesDecode :=
  ⟨decode_encode (i := .diff 0 2 3) rfl [],
    decode_encode (i := .luma 33 9 7) rfl [],
    decode_encode (i := .run 61) rfl [],
    decode_encode (i := .index 53) rfl [],
    decode_encode (i := .rgb 10 20 30) rfl [],
    decode_encode (i := .rgba 1 2 3 128) rfl []⟩

/-! ## Encoding what is decoded -/

/-- Everything the operand decoder can do with a tag of its operation: there are too few bytes, or it reads a
well-formed chunk of the operation, whose encoding the bytes are. -/
theorem decodeOperands_cases {op : Op} {tag : Byte} (h : op.HasTag tag) (tail : List Byte) :
    (tail.length + 1 < op.length ∧ decodeOperands op tag tail = .error (.truncated op)) ∨
    ∃ i rest, decodeOperands op tag tail = .ok (i, rest) ∧ i.op = op ∧ i.wellFormed = true ∧
      encode i ++ rest = tag :: tail := by
  cases op with
  | rgb =>
    have htag : tag = 0xFE#8 := BitVec.eq_of_toNat_eq h
    match tail with
    | [] | [_] | [_, _] => exact .inl ⟨by simp [Op.length], rfl⟩
    | r :: g :: b :: rest => exact .inr ⟨.rgb r g b, rest, rfl, rfl, rfl, by simp [encode, htag]⟩
  | rgba =>
    have htag : tag = 0xFF#8 := BitVec.eq_of_toNat_eq h
    match tail with
    | [] | [_] | [_, _] | [_, _, _] => exact .inl ⟨by simp [Op.length], rfl⟩
    | r :: g :: b :: a :: rest => exact .inr ⟨.rgba r g b a, rest, rfl, rfl, rfl, by simp [encode, htag]⟩
  | index =>
    have htag : 0b00#2 ++ tagField tag = tag := append_tagField (Nat.div_eq_of_lt (Nat.lt_succ_iff.mpr h))
    exact .inr ⟨.index (tagField tag), tail, rfl, rfl, rfl, by simp [encode, htag]⟩
  | diff => exact .inr ⟨decodeDiff tag, tail, rfl, rfl, rfl, by simp [encode_decodeDiff h]⟩
  | luma =>
    obtain ⟨hlo, hhi⟩ := h
    have htag : 0b10#2 ++ tagField tag = tag := append_tagField (show tag.toNat / 64 = 2 by omega)
    match tail with
    | [] => exact .inl ⟨by simp [Op.length], rfl⟩
    | b1 :: rest => exact .inr ⟨_, rest, rfl, rfl, rfl, by simp [encode, htag, append_lumaFields]⟩
  | run =>
    obtain ⟨hlo, hhi⟩ := h
    have htag : 0b11#2 ++ tagField tag = tag := append_tagField (show tag.toNat / 64 = 3 by omega)
    have hle : (tagField tag).toNat ≤ 61 := by
      rw [tagField_toNat]
      omega
    exact .inr ⟨.run (tagField tag), tail, rfl, rfl, decide_eq_true hle, by simp [encode, htag]⟩

/-- Settles O4: the tag is one of the operation that read the chunk. -/
theorem decodedBytesAreTheEncoding : Obligations.DecodedBytesAreTheEncoding := by
  intro bytes rest i h
  cases bytes with
  | nil => cases h
  | cons tag tail =>
    obtain ⟨op, hop⟩ := exists_hasTag tag
    rw [decode_cons hop] at h
    obtain ⟨-, herr⟩ | ⟨i', rest', hok, -, hwf, henc⟩ := decodeOperands_cases hop tail
    · cases herr.symm.trans h
    · cases hok.symm.trans h
      exact ⟨hwf, henc⟩

/-- Settles O5: every tag is one of an operation, and only missing bytes keep the operation from being read. -/
theorem everyTagAndOperandIsLegal : Obligations.EveryTagAndOperandIsLegal := by
  intro tag
  obtain ⟨op, hop⟩ := exists_hasTag tag
  refine ⟨op, classify_of_hasTag hop, fun rest hlen => ?_⟩
  rw [decode_cons hop]
  obtain ⟨hshort, -⟩ | ⟨i, rest', hok, hi, -, -⟩ := decodeOperands_cases hop rest
  · exact absurd hlen (Nat.not_le_of_lt hshort)
  · exact ⟨i, rest', hok, hi⟩

/-- Settles O7: the bytes read are the chunk's own, and there are as many as its operation takes. -/
theorem chunkLengths : Obligations.ChunkLengths := by
  intro bytes rest i h
  obtain ⟨chunk, rfl, hlen, -⟩ := decode_local h
  rw [List.length_append, hlen, Nat.add_comm]
  cases i <;> rfl

/-- No byte reaches the dispatch's last arm (R60, R61). -/
theorem decode_ne_unrecognizedTag (bytes : List Byte) (tag : Byte) : decode bytes ≠ .error (.unrecognizedTag tag) := by
  intro h
  cases bytes with
  | nil => cases h
  | cons first tail =>
    obtain ⟨op, hop⟩ := exists_hasTag first
    rw [decode_cons hop] at h
    obtain ⟨-, herr⟩ | ⟨i, rest, hok, -⟩ := decodeOperands_cases hop tail
    · cases herr.symm.trans h
    · cases hok.symm.trans h

end Sys2Proof

namespace Sys2Proof.Machine

/-! ## What a step can raise -/

theorem State.fetch_ne_unrecognizedTag (s : State) (tag : Byte) : s.fetch ≠ .error (.unrecognizedTag tag) := by
  cases hd : decode (s.input.drop s.pc) with
  | ok chunk => simp [State.fetch, hd]
  | error e =>
    rw [State.fetch_error hd]
    intro he
    cases he
    exact decode_ne_unrecognizedTag _ tag hd

theorem raisedBy_of_fetch {s : State} {e : DecodeError} (h : s.fetch = .error e) : raisedBy e = .truncatedStream := by
  cases e with
  | noTag | truncated => rfl
  | unrecognizedTag tag => exact absurd h (s.fetch_ne_unrecognizedTag tag)

/-- The one fault a step takes is TruncatedStream. -/
theorem step_wroteCell_or_truncated {s t : State} (h : step s = .next t) :
    WroteCell s t ∨ t = s.takeFault .truncatedStream := by
  obtain ⟨-, ⟨-, hc⟩ | ⟨-, i, -, hx⟩ | ⟨-, e, he, ht⟩⟩ := step_cases h
  · exact .inl hc.wroteCell
  · exact (exec_cases hx).imp ChunkRan.wroteCell And.right
  · exact .inr (raisedBy_of_fetch he ▸ ht)

/-- Settles O30: the write-back keeps FCAUSE, and the one fault a step takes has another cause. -/
theorem unrecognizedTagIsNeverRaised : Obligations.UnrecognizedTagIsNeverRaised := by
  refine ⟨State.fetch_ne_unrecognizedTag, fun s t h ht => ?_⟩
  obtain ⟨⟨px, he⟩, -, -, -⟩ | rfl := step_wroteCell_or_truncated h
  · rw [← he.fcause, ht]
  · cases ht

/-! ## A step within a decode goes on -/

theorem exec_next (i : Instr) {s : State} (hg : s.linear < s.grid.size) : ∃ t, exec i s = .next t := by
  by_cases hp : s.pc + i.length ≤ s.len
  · obtain ⟨t, ht, -⟩ := exec_runs hp hg
    exact ⟨t, ht⟩
  · exact ⟨_, exec_truncated (Nat.lt_of_not_le hp)⟩

theorem step_next {s : State} (hb : s.status = .busy) (hg : s.linear < s.grid.size) : ∃ t, step s = .next t := by
  cases hr : s.inRun with
  | true =>
    obtain ⟨t, ht, -⟩ := runContinuation_runs hg
    exact ⟨t, by rw [step_inRun hb hr, ht]⟩
  | false =>
    cases hf : s.fetch with
    | ok i => exact step_chunk hb hr hf ▸ exec_next i hg
    | error e => exact ⟨_, step_fetchFault hb hr hf⟩

theorem step_status {s t : State} (h : step s = .next t) : t.status = .busy ∨ t.status = .done ∨ t.status = .fault := by
  obtain ⟨hb, -⟩ := step_cases h
  obtain ⟨⟨px, he⟩, -, -, -⟩ | ⟨r, rfl⟩ := step_wroteCell_or_takeFault h
  · rw [he.status, hb]
    split
    · exact .inr (.inl rfl)
    · exact .inl rfl
  · exact .inr (.inr (State.takeFault_status s r))

/-- During a decode the position is a cell of the Grid (R35, R144). -/
theorem BusyInv.linear_lt {s : State} (h : BusyInv s) : s.linear < s.grid.size :=
  (State.InImage.linear_lt ⟨h.rowLt, h.colLt⟩).trans_le h.gridFits

/-- Settles O40: during a decode the step can write its cell, and outside one it is refused. -/
theorem busyStepAlwaysMoves : Obligations.BusyStepAlwaysMoves := by
  intro s hinv
  have hnext (hb : s.status = .busy) : ∃ t, step s = .next t := step_next hb (hinv.busy hb).linear_lt
  refine ⟨fun r hr => ?_, fun hb => ?_⟩
  · by_cases hb : s.status = .busy
    · obtain ⟨t, ht⟩ := hnext hb
      cases ht.symm.trans hr
    · cases (step_disabled hb).symm.trans hr
  · obtain ⟨t, ht⟩ := hnext hb
    exact ⟨t, ht, step_status ht⟩

end Sys2Proof.Machine

/-! # O37, O38, O39, O31, O32, O33, O26, O23, O42: the common step (`40_common_step.md`)

A step that goes on is a run continuation, a chunk that ran whole, or a TruncatedStream. The block's invariant (R85) is
kept by each of the three, and the host's moves establish it, so it holds between the steps of every decode. -/

namespace Sys2Proof.Machine

/-! ## The three kinds of step -/

/-- Everything a step can do, each kind told by `run_length` and the fetch. -/
theorem step_kinds {s t : State} (h : step s = .next t) :
    (0 < s.runLength.toNat ∧ Continued s t) ∨
    (s.runLength = 0 ∧ ∃ i, s.fetch = .ok i ∧ ChunkRan i s t) ∨
    (s.runLength = 0 ∧ t = s.takeFault .truncatedStream) := by
  obtain ⟨-, ⟨hr, hc⟩ | ⟨hr, i, hf, hx⟩ | ⟨hr, e, hf, ht⟩⟩ := step_cases h
  · exact .inl ⟨s.inRun_iff.mp hr, hc⟩
  · obtain hran | ⟨-, ht⟩ := exec_cases hx
    · exact .inr (.inl ⟨s.inRun_false_iff.mp hr, i, hf, hran⟩)
    · exact .inr (.inr ⟨s.inRun_false_iff.mp hr, ht⟩)
  · exact .inr (.inr ⟨s.inRun_false_iff.mp hr, raisedBy_of_fetch hf ▸ ht⟩)

/-- With a run pending, every step that goes on is a run continuation. -/
theorem continued_of_step {s t : State} (h : step s = .next t) (hr : 0 < s.runLength.toNat) : Continued s t := by
  obtain ⟨-, hc⟩ | ⟨h0, -⟩ | ⟨h0, -⟩ := step_kinds h
  · exact hc
  all_goals simp [h0] at hr

theorem Continued.runLength_toNat {s t : State} (h : Continued s t) (hr : 0 < s.runLength.toNat) :
    t.runLength.toNat = s.runLength.toNat - 1 := by
  rw [h.runLength]
  bv_omega

/-- A step that takes no fault wrote its cell. -/
theorem emitted_of_step {s t : State} (h : step s = .next t) (ht : t.status ≠ .fault) : ∃ px, Emitted s t px := by
  obtain hw | ⟨r, rfl⟩ := step_wroteCell_or_takeFault h
  · exact hw.emitted
  · simp at ht

/-- The chunk at the cursor has an encoding (R58). -/
theorem fetch_wellFormed {s : State} {i : Instr} (h : s.fetch = .ok i) : i.wellFormed = true := by
  obtain ⟨rest, hdec⟩ := State.fetch_eq_ok_iff.mp h
  exact (decodedBytesAreTheEncoding _ _ _ hdec).1

/-! ## The table and `run_length` between steps (R85 (c), (e)) -/

/-- R85 (e): every slot is zero or holds a pixel of its hash. -/
def State.TableOk (s : State) : Prop := ∀ i, s.slot i = Pixel.zero ∨ pixelHash (s.slot i) = i

theorem State.TableOk.of_table_eq {s t : State} (hs : s.TableOk) (h : t.table = s.table) : t.TableOk := fun i => by
  rw [State.slot_congr h]
  exact hs i

theorem State.TableOk.of_recorded {s t : State} {px : Pixel} (hs : s.TableOk) (h : Recorded s t px) : t.TableOk :=
  fun i => by
    rw [h i]
    split
    · next hi => exact .inr hi.symm
    · exact hs i

theorem State.tableOk_of_replicate {s : State} (h : s.table = Vector.replicate 64 Pixel.zero) : s.TableOk :=
  fun i => .inl (slot_replicate s _ h i)

theorem ChunkRan.tableOk {i : Instr} {s t : State} (h : ChunkRan i s t) (hs : s.TableOk) : t.TableOk := by
  have htable := h.table
  cases i
  case index | run => exact hs.of_table_eq htable
  all_goals exact hs.of_recorded htable

/-- A chunk that has an encoding leaves at most 61 in `run_length` (R58, R85 (c)). -/
theorem runLengthAfter_le {i : Instr} {s : State} (hi : i.wellFormed = true) (hs : s.runLength.toNat ≤ 61) :
    (runLengthAfter i s).toNat ≤ 61 := by
  cases i
  case run => exact of_decide_eq_true hi
  all_goals exact hs

/-! ## The position and the Grid between steps (R85 (a), (b), (f)) -/

theorem BusyInv.inImage {s : State} (h : BusyInv s) : s.InImage := ⟨h.rowLt, h.colLt⟩

theorem BusyInv.cellsInOrder {s : State} (h : BusyInv s) (hb : s.status = .busy) : CellsInOrder s where
  inImage _ := h.inImage
  atEnd hd := by simp [hb] at hd
  written := h.written
  last hpos := by
    have hlast := h.last
    rwa [if_neg hpos.ne'] at hlast

theorem Emitted.pixels {s t : State} {px : Pixel} (h : Emitted s t px) : t.pixels = s.pixels := by
  rw [State.pixels, State.pixels, h.width, h.height]

theorem Emitted.busyInv {s t : State} {px : Pixel} (h : Emitted s t px) (hs : BusyInv s) (hb : s.status = .busy)
    (ht : t.status = .busy) : BusyInv t := by
  have hcells := h.cellsInOrder (hs.cellsInOrder hb) hb
  have hpos : 0 < t.linear := by
    rw [h.linear hs.inImage]
    exact Nat.succ_pos _
  obtain ⟨hrow, hcol⟩ := hcells.inImage ht
  refine ⟨hrow, hcol, ?_, hcells.written, ?_⟩
  · rw [h.pixels, h.gridSize]
    exact hs.gridFits
  · rw [if_neg hpos.ne']
    exact hcells.last hpos

/-! ## The invariant -/

/-- A write-back keeps the invariant, where the effects the step kinds differ in do. -/
theorem Emitted.decoderInv {s t : State} {px : Pixel} (h : Emitted s t px) (hs : DecoderInv s)
    (hb : s.status = .busy) (hwf : t.grid.wf = true) (hrun : t.runLength.toNat ≤ 61) (hpc : t.pc ≤ s.len)
    (htable : t.TableOk) : DecoderInv t where
  gridWf := hwf
  runLengthLe := hrun
  cursorLe := by rwa [State.len, h.input]
  tableOk := htable
  noFault _ := by
    rw [h.fcause, h.fbyte, h.frow, h.fcol]
    exact hs.noFault (by simp [hb])
  faulted ht := absurd ht (h.status_ne_fault (by simp [hb]))
  busy := h.busyInv (hs.busy hb) hb

theorem Continued.decoderInv {s t : State} (h : Continued s t) (hs : DecoderInv s) (hb : s.status = .busy)
    (hr : 0 < s.runLength.toNat) : DecoderInv t := by
  refine h.emitted.decoderInv hs hb (h.gridWf hs.gridWf) ?_ (h.pc.trans_le hs.cursorLe)
    (State.TableOk.of_table_eq hs.tableOk h.table)
  rw [h.runLength_toNat hr]
  exact (Nat.sub_le _ _).trans hs.runLengthLe

theorem ChunkRan.decoderInv {i : Instr} {s t : State} (h : ChunkRan i s t) (hs : DecoderInv s) (hb : s.status = .busy)
    (hi : i.wellFormed = true) : DecoderInv t := by
  refine h.emitted.decoderInv hs hb (h.gridWf hs.gridWf) ?_ (h.pc.trans_le h.present) (h.tableOk hs.tableOk)
  rw [h.runLength]
  exact runLengthAfter_le hi hs.runLengthLe

/-- TruncatedStream writes the fault record and STATUS alone (R124). -/
theorem DecoderInv.takeTruncated {s : State} (hs : DecoderInv s) : DecoderInv (s.takeFault .truncatedStream) where
  gridWf := hs.gridWf
  runLengthLe := hs.runLengthLe
  cursorLe := hs.cursorLe
  tableOk := hs.tableOk
  noFault ht := absurd rfl ht
  faulted _ := ⟨rfl, rfl, rfl⟩
  busy hb := by cases hb

theorem DecoderInv.step {s t : State} (hs : DecoderInv s) (h : step s = .next t) : DecoderInv t := by
  obtain ⟨hb, -⟩ := step_cases h
  obtain ⟨hr, hc⟩ | ⟨-, i, hf, hran⟩ | ⟨-, rfl⟩ := step_kinds h
  · exact hc.decoderInv hs hb hr
  · exact hran.decoderInv hs hb (fetch_wellFormed hf)
  · exact hs.takeTruncated

/-- Settles O37: each of the three kinds of step keeps the invariant. -/
theorem stepKeepsInvariant : Obligations.StepKeepsInvariant := fun _ _ hs h => hs.step h

theorem hostReset_decoderInv {s : State} (hwf : s.grid.wf = true) : DecoderInv (hostReset s) where
  gridWf := hwf
  runLengthLe := Nat.zero_le 61
  cursorLe := Nat.zero_le _
  tableOk := State.tableOk_of_replicate rfl
  noFault _ := ⟨rfl, rfl, rfl, rfl⟩
  faulted hf := by cases hf
  busy hb := by cases hb

/-- Before the first step no cell holds a value and `last_pix` is the start pixel (R141, R143). -/
theorem decodeStart_busyInv {w h : Word} {n : Nat} (hw : 0 < w.toNat) (hh : 0 < h.toNat)
    (hn : w.toNat * h.toNat ≤ n) (s : State) (input : List Byte) : BusyInv (s.decodeStart w h input n) where
  rowLt := hh
  colLt := hw
  gridFits := hn
  written := (decodeStart_cellsInOrder hw hh s input n).written
  last := by simp [State.decodeStart, State.linear]

theorem decodeStart_decoderInv {w h : Word} {n : Nat} (hw : 0 < w.toNat) (hh : 0 < h.toNat)
    (hn : w.toNat * h.toNat ≤ n) (s : State) (input : List Byte) : DecoderInv (s.decodeStart w h input n) where
  gridWf := decodeStart_grid_wf s w h input n
  runLengthLe := Nat.zero_le 61
  cursorLe := Nat.zero_le _
  tableOk := State.tableOk_of_replicate rfl
  noFault _ := ⟨rfl, rfl, rfl, rfl⟩
  faulted hf := by cases hf
  busy _ := decodeStart_busyInv hw hh hn s input

theorem hostStart_decoderInv {maxPixels : Option Nat} {req : StartRequest} {s t : State}
    (h : hostStart maxPixels req s = .next t) : DecoderInv t := by
  obtain ⟨-, hw, hh, hn, rfl⟩ := hostStart_cases h
  exact decodeStart_decoderInv hw hh hn s req.input

theorem hostSetDimensions_cases {w h : Word} {s t : State} (hset : hostSetDimensions w h s = .next t) :
    s.status ≠ .busy ∧ t = { s with width := w, height := h } := by
  unfold hostSetDimensions at hset
  split at hset
  · cases hset
  · next hb =>
    cases hset
    exact ⟨hb, rfl⟩

/-- The dimensions matter to the invariant only while BUSY. -/
theorem DecoderInv.withDimensions {s : State} (hs : DecoderInv s) (hb : s.status ≠ .busy) (w h : Word) :
    DecoderInv { s with width := w, height := h } where
  gridWf := hs.gridWf
  runLengthLe := hs.runLengthLe
  cursorLe := hs.cursorLe
  tableOk := hs.tableOk
  noFault := hs.noFault
  faulted := hs.faulted
  busy hbusy := absurd hbusy hb

/-- Settles O38: `State.reset` is a hardware reset of itself, and each host move has its own lemma. -/
theorem resetAndHostMovesMeetInvariant : Obligations.ResetAndHostMovesMeetInvariant := by
  refine ⟨hostReset_decoderInv reset_grid_wf, fun s hs => hostReset_decoderInv hs.gridWf,
    fun _ _ _ _ => hostStart_decoderInv, fun w h s t hs hset => ?_⟩
  obtain ⟨hb, rfl⟩ := hostSetDimensions_cases hset
  exact hs.withDimensions hb w h

/-- Settles O39: the start establishes the invariant and every step keeps it. -/
theorem betweenStepsOfADecode : Obligations.BetweenStepsOfADecode := by
  intro maxPixels req s s0 t k hstart hrun hb
  have hinv : DecoderInv t := run_keeps (fun _ _ => DecoderInv.step) (hostStart_decoderInv hstart) hrun
  have hbusy := hinv.busy hb
  exact ⟨hbusy.last, hbusy.written, hinv.runLengthLe, hinv.cursorLe, hinv.tableOk, hbusy.colLt, hbusy.rowLt⟩

/-! ## Where a step leaves the position (R81, R82) -/

/-- A column below WIDTH makes row and column the quotient and the remainder of the linear index. -/
theorem State.row_col_of_linear {s : State} (h : s.col.toNat < s.width.toNat) :
    s.row.toNat = s.linear / s.width.toNat ∧ s.col.toNat = s.linear % s.width.toNat := by
  have hlin : s.col.toNat + s.width.toNat * s.row.toNat = s.linear := by
    rw [State.linear, Nat.mul_comm, Nat.add_comm]
  obtain ⟨hdiv, hmod⟩ := (Nat.div_mod_unique (Nat.zero_lt_of_lt h)).mpr ⟨hlin, h⟩
  exact ⟨hdiv.symm, hmod.symm⟩

/-- A write-back leaves the column below WIDTH, at the end of the grid too. -/
theorem Emitted.col_lt {s t : State} {px : Pixel} (h : Emitted s t px) (himage : s.InImage) :
    t.col.toNat < t.width.toNat := by
  rw [h.width]
  have hpos := h.position himage
  obtain ⟨-, hcol⟩ := himage
  omega

/-- A write-back in a decode makes STATUS DONE exactly when the position has passed the last cell (R82). -/
theorem Emitted.done_iff {s t : State} {px : Pixel} (h : Emitted s t px) (himage : s.InImage)
    (hs : s.status ≠ .done) : t.status = .done ↔ t.linear = t.pixels := by
  constructor
  · intro ht
    obtain ⟨hrow, hcol⟩ := h.position_of_done himage hs ht
    simp [State.linear, State.pixels, hrow, hcol, h.height, Nat.mul_comm]
  · intro hend
    by_contra ht
    exact (h.inImage himage ht).linear_lt.ne hend

theorem Emitted.status_of_ne_done {s t : State} {px : Pixel} (h : Emitted s t px) (ht : t.status ≠ .done) :
    t.status = s.status := by
  have hstatus := h.status
  split at hstatus
  · exact absurd hstatus ht
  · exact hstatus

/-- Settles O31: the cell a step writes is followed by the next one in row-major order. -/
theorem linearIndexAdvancesByOne : Obligations.LinearIndexAdvancesByOne := by
  intro s t hrow hcol h ht
  obtain ⟨px, he⟩ := emitted_of_step h ht
  exact ⟨he.linear ⟨hrow, hcol⟩, State.row_col_of_linear (he.col_lt ⟨hrow, hcol⟩)⟩

/-- Settles O32: the position passes the last cell exactly when that is the cell written. -/
theorem doneExactlyAtLastCell : Obligations.DoneExactlyAtLastCell := by
  intro s t hrow hcol h ht
  have himage : s.InImage := ⟨hrow, hcol⟩
  obtain ⟨hb, -⟩ := step_cases h
  have hs : s.status ≠ .done := by simp [hb]
  obtain ⟨px, he⟩ := emitted_of_step h ht
  refine ⟨?_, he.position_of_done himage hs⟩
  rw [he.done_iff himage hs, he.linear himage, he.pixels]
  rfl

/-! ## The chunk a step runs (R76, R78, R83) -/

/-- Settles O26: out of a run the step fetches, and the fetch is the decoding of the bytes at the cursor. -/
theorem stepRunsDecodedChunk : Obligations.StepRunsDecodedChunk := fun s _ _ hb hr hdec =>
  step_chunk hb (s.inRun_false_iff.mpr hr) (State.fetch_ok hdec)

/-- Settles O33: the continuation counts down and reads nothing; of the two other kinds only the whole chunk takes no
fault. -/
theorem runStateTransitions : Obligations.RunStateTransitions := by
  intro s t h
  refine ⟨fun hr => ?_, fun h0 ht => ?_⟩
  · have hc := continued_of_step h hr
    exact ⟨hc.runLength_toNat hr, hc.pc, hc.wroteCell.status_ne_fault h⟩
  · obtain ⟨hr, -⟩ | ⟨-, i, hf, hran⟩ | ⟨-, rfl⟩ := step_kinds h
    · simp [h0] at hr
    · refine ⟨i, hf, hran.pc, hran.runLength.trans ?_⟩
      cases i
      case run => rfl
      all_goals exact h0
    · simp at ht

/-- Settles O23: a chunk that is wholly there runs, and its pixel is the new `last_pix`. -/
theorem tableWriters : Obligations.TableWriters := by
  refine ⟨fun i s t h hp => ?_, fun s t hr h => (continued_of_step h hr).table⟩
  obtain hran | ⟨htrunc, -⟩ := exec_cases h
  · have htable := hran.table
    cases i
    case index | run => exact htable
    all_goals exact hran.emitted.lastPix ▸ htable
  · exact absurd hp (Nat.not_le_of_lt htrunc)

/-! ## Several steps of a pending run (R110, R112) -/

/-- `t` is `s` after `k` continuations of its pending run: the next `k` cells hold `last_pix`, and nothing was read. -/
structure RanOn (k : Nat) (s t : State) : Prop where
  runLength : t.runLength.toNat = s.runLength.toNat - k
  pc : t.pc = s.pc
  lastPix : t.lastPix = s.lastPix
  table : t.table = s.table
  linear : t.linear = s.linear + k
  pixels : t.pixels = s.pixels
  gridSize : t.grid.size = s.grid.size
  cells : ∀ j, t.grid.read j = if s.linear ≤ j ∧ j < s.linear + k then some s.lastPix else s.grid.read j
  goesOn : s.linear + k < s.pixels → t.status = .busy ∧ t.InImage
  ends : s.linear + k = s.pixels → t.status = .done

theorem RanOn.zero {s : State} (hb : s.status = .busy) (himage : s.InImage) : RanOn 0 s s where
  runLength := rfl
  pc := rfl
  lastPix := rfl
  table := rfl
  linear := rfl
  pixels := rfl
  gridSize := rfl
  cells j := by rw [if_neg (by omega)]
  goesOn _ := ⟨hb, himage⟩
  ends hend := absurd hend himage.linear_lt.ne

/-- One continuation more. -/
theorem RanOn.succ {k : Nat} {s t u : State} (h : RanOn k s t) (hb : t.status = .busy) (himage : t.InImage)
    (hr : k < s.runLength.toNat) (hc : Continued t u) : RanOn (k + 1) s u := by
  have he := hc.emitted
  have hlin : u.linear = s.linear + (k + 1) := by rw [he.linear himage, h.linear, Nat.add_assoc]
  have hpixels : u.pixels = s.pixels := he.pixels.trans h.pixels
  have hdone : u.status = .done ↔ s.linear + (k + 1) = s.pixels := by
    rw [he.done_iff himage (by simp [hb]), hlin, hpixels]
  refine ⟨?_, hc.pc.trans h.pc, he.lastPix.trans h.lastPix, hc.table.trans h.table, hlin, hpixels,
    he.gridSize.trans h.gridSize, fun j => ?_, fun hlt => ?_, hdone.mpr⟩
  · rw [hc.runLength_toNat (h.runLength ▸ Nat.sub_pos_of_lt hr), h.runLength, Nat.sub_sub]
  · rw [he.cells, h.cells, h.linear, h.lastPix]
    by_cases hj : j = s.linear + k
    · rw [if_pos hj, if_pos (by omega)]
    · rw [if_neg hj]
      exact if_congr (by omega) rfl rfl
  · have hnot : u.status ≠ .done := hdone.not.mpr hlt.ne
    exact ⟨(he.status_of_ne_done hnot).trans hb, he.inImage himage hnot⟩

/-- A pending run goes on as long as the run and the grid last, whatever the stream holds. -/
theorem run_ranOn {s : State} (hb : s.status = .busy) (himage : s.InImage) (hgrid : s.pixels ≤ s.grid.size) {k : Nat}
    (hr : k ≤ s.runLength.toNat) (hk : s.linear + k ≤ s.pixels) : ∃ t, run k s = .next t ∧ RanOn k s t := by
  induction k with
  | zero => exact ⟨s, rfl, .zero hb himage⟩
  | succ k ih =>
    obtain ⟨t, ht, hran⟩ := ih (Nat.le_of_succ_le hr) (Nat.le_of_succ_le hk)
    obtain ⟨htb, htimage⟩ := hran.goesOn hk
    have hfits : t.linear < t.grid.size := by
      rw [hran.gridSize]
      exact (htimage.linear_lt.trans_eq hran.pixels).trans_le hgrid
    obtain ⟨u, hu⟩ := step_next htb hfits
    have hpending : 0 < t.runLength.toNat := hran.runLength ▸ Nat.sub_pos_of_lt hr
    exact ⟨u, by rw [run_add 1 ht, run_succ 0 hu, run_zero], hran.succ htb htimage hr (continued_of_step hu hpending)⟩

/-- Settles O42: with as many continuations as there are cells left, the run reaches the end of the grid. -/
theorem overlongRunEndsWithTheGrid : Obligations.OverlongRunEndsWithTheGrid := by
  intro s n hb hrow hcol hgrid hn hr
  obtain ⟨t, ht, hran⟩ := run_ranOn hb ⟨hrow, hcol⟩ hgrid hr hn.le
  exact ⟨t, ht, hran.ends hn, hran.runLength, hran.pc, hran.cells⟩

end Sys2Proof.Machine

/-! # O8 to O13: the arithmetic unit, the hash unit and the History Table (`40_common_step.md`)

A byte is a number modulo 256 and the hash a number modulo 64. So the laws of bytes are those of the commutative ring,
the hash may be reduced modulo 64 anywhere on the way, and 11, the weight of alpha, has an inverse modulo 64. -/

namespace Sys2Proof.Machine

/-! ## The arithmetic unit (R70, R71, R73) -/

theorem add8_toNat (x y : Byte) : (add8 x y).toNat = (x.toNat + y.toNat) % 256 := BitVec.toNat_add x y

theorem sub8_toNat (x y : Byte) : (sub8 x y).toNat = (x.toNat + 256 - y.toNat) % 256 := by
  have hy := y.isLt
  rw [sub8, BitVec.toNat_sub]
  omega

/-- Settles O8: 8-bit vectors are added and subtracted modulo 256. -/
theorem arithmeticIsModulo256 : Obligations.ArithmeticIsModulo256 := fun x y => ⟨add8_toNat x y, sub8_toNat x y⟩

theorem applyBias_toNat (x v bias : Byte) :
    (applyBias x v bias).toNat = (x.toNat + v.toNat + 256 - bias.toNat) % 256 := by
  have hbias := bias.isLt
  rw [applyBias, sub8_toNat, add8_toNat]
  omega

theorem applyBias_eq_add8_sub8 (x v bias : Byte) : applyBias x v bias = add8 x (sub8 v bias) :=
  add_sub_assoc x v bias

/-- Settles O9: the groupings agree as sums of bytes, and the signed delta is the same sum before the reduction. -/
theorem biasGroupingsAgree : Obligations.BiasGroupingsAgree := by
  intro x v bias
  refine ⟨rfl, applyBias_eq_add8_sub8 x v bias, applyBias_toNat x v bias, ?_⟩
  have hbias := bias.isLt
  rw [applyBias_toNat]
  omega

/-- Adding `256 - n` takes `n` off (R73). -/
theorem add8_complement (x : Byte) {n : Nat} (h1 : 1 ≤ n) (hn : n ≤ 255) :
    add8 x (BitVec.ofNat 8 (256 - n)) = sub8 x (BitVec.ofNat 8 n) := by
  apply BitVec.eq_of_toNat_eq
  rw [add8_toNat, sub8_toNat, BitVec.toNat_ofNat, BitVec.toNat_ofNat]
  omega

theorem add8_sub8_zero (x y : Byte) : add8 x (sub8 0 y) = sub8 x y := by
  rw [add8, sub8, sub8, zero_sub, sub_eq_add_neg]

/-- Settles O10: the ring laws of bytes, and the complement. -/
theorem arithmeticLaws : Obligations.ArithmeticLaws :=
  ⟨add_comm, add_assoc, add_zero, add_sub_cancel_right, add8_sub8_zero, fun x _ => add8_complement x⟩

/-! ## The hash unit (R74, R75, R77) -/

theorem pixelHash_toNat (p : Pixel) : (pixelHash p).toNat = pixelHashSum p % 64 := by
  rw [pixelHash, BitVec.toNat_ofNat]
  exact Nat.mod_mod _ _

/-- Settles O11: the formula with each product the other way round. -/
theorem hashFormula : Obligations.HashFormula := by
  refine ⟨fun p => ?_, rfl⟩
  rw [pixelHash_toNat, pixelHashSum]
  omega

/-- Settles O12: sums and products may be reduced modulo `2^k` and modulo 64 on the way, and 64 divides `2^k`. -/
theorem hashWidthIsIrrelevant : Obligations.HashWidthIsIrrelevant := by
  intro p k hk
  rw [pixelHash_toNat, pixelHashSum]
  constructor
  · have hdvd : 64 ∣ 2 ^ k := Nat.pow_dvd_pow 2 hk
    simp only [← BitVec.ofNat_mul, ← BitVec.ofNat_add]
    rw [BitVec.toNat_ofNat, Nat.mod_mod_of_dvd _ hdvd]
    omega
  · omega

/-- 35 is the inverse of 11 modulo 64, so the other channels and the slot fix alpha modulo 64. -/
theorem pixelHash_eq_iff (r g b : Byte) (slot : BitVec 6) (a : Nat) :
    pixelHash ⟨r, g, b, BitVec.ofNat 8 a⟩ = slot ↔
      a ≡ 35 * (slot.toNat + 61 * r.toNat + 59 * g.toNat + 57 * b.toNat) [MOD 64] := by
  have hslot := slot.isLt
  simp only [← BitVec.toNat_inj, pixelHash_toNat, pixelHashSum, BitVec.toNat_ofNat, Nat.ModEq]
  omega

/-- Each residue modulo 64 has four bytes (R77). -/
theorem alphas_of_slot (slot : BitVec 6) (r g b : Byte) :
    ((List.range 256).filter fun a => decide (pixelHash ⟨r, g, b, BitVec.ofNat 8 a⟩ = slot)).length = 4 := by
  simp only [pixelHash_eq_iff, ← List.countP_eq_length_filter]
  exact Nat.count_modEq_card 256 (by decide) _

theorem State.recordToCache_recordToCache (s : State) {p q : Pixel} (h : pixelHash p = pixelHash q) :
    (s.recordToCache p).recordToCache q = s.recordToCache q := by
  simp [State.recordToCache, State.setSlot, h]

/-- Settles O13: the second record overwrites the first whole, and four alphas reach a slot from each colour. -/
theorem collisionsOverwriteSilently : Obligations.CollisionsOverwriteSilently := by
  refine ⟨fun s p q h => ?_, alphas_of_slot⟩
  rw [s.recordToCache_recordToCache h, h]
  refine ⟨?_, fun i hi => ?_, _, rfl⟩
  · rw [State.slot_recordToCache, if_pos rfl]
  · rw [State.slot_recordToCache, if_neg hi]

end Sys2Proof.Machine

/-! # O16, O17, O25: the literal operations, and which steps carry alpha (`41_literal.md`) -/

namespace Sys2Proof.Machine

theorem exec_faultEntered {i : Instr} {s : State} (hp : s.len < s.pc + i.length) :
    ∃ t, exec i s = .next t ∧ FaultEntered s t .truncatedStream :=
  ⟨_, exec_truncated hp, s.takeFault_truncated⟩

/-- Settles O16: of the chunk that ran whole, `chunkPixel` is the literal colour with the carried alpha. -/
theorem rgbResult : Obligations.RgbResult := by
  intro r g b s
  refine ⟨fun hp hg => ?_, exec_faultEntered (i := .rgb r g b)⟩
  obtain ⟨t, ht, hran⟩ := exec_runs (i := .rgb r g b) hp hg
  exact ⟨t, ht, hran.emitted, hran.table, hran.pc, hran.runLength, hran.freeCount⟩

/-- Settles O17: of the chunk that ran whole, `chunkPixel` is the literal pixel. -/
theorem rgbaResult : Obligations.RgbaResult := by
  intro r g b a s
  refine ⟨fun hp hg => ?_, exec_faultEntered (i := .rgba r g b a)⟩
  obtain ⟨t, ht, hran⟩ := exec_runs (i := .rgba r g b a) hp hg
  exact ⟨t, ht, hran.emitted, hran.table, hran.pc, hran.runLength, hran.freeCount⟩

/-- RGB, DIFF, LUMA and RUN form their pixel with the alpha of `last_pix` (R90, R100, R101, R110). -/
theorem chunkPixel_alpha {i : Instr} (s : State) (hrgba : i.op ≠ .rgba) (hindex : i.op ≠ .index) :
    (chunkPixel i s).a = s.lastPix.a := by
  cases i with
  | rgba => exact absurd rfl hrgba
  | index => exact absurd rfl hindex
  | rgb | diff | luma | run => rfl

/-- Settles O25: the pixel written back carries alpha, and a TruncatedStream leaves `last_pix` as it is. -/
theorem alphaIsCarried : Obligations.AlphaIsCarried := by
  refine ⟨fun i s t h hrgba hindex => ?_, fun s t hr h => ?_⟩
  · obtain hran | ⟨-, rfl⟩ := exec_cases h
    · rw [hran.emitted.lastPix, chunkPixel_alpha s hrgba hindex]
    · rw [State.takeFault_lastPix]
  · rw [(continued_of_step h hr).emitted.lastPix]

end Sys2Proof.Machine

/-! # O18: the operation that reads the History Table (`42_index.md`) -/

namespace Sys2Proof.Machine

/-- Settles O18: of the chunk that ran whole, `chunkPixel` is the slot, and the table is the one before. -/
theorem indexResult : Obligations.IndexResult := by
  intro i s
  refine ⟨fun hp hg => ?_, exec_faultEntered (i := .index i)⟩
  obtain ⟨t, ht, hran⟩ := exec_runs (i := .index i) hp hg
  exact ⟨t, ht, hran.emitted, hran.table, hran.pc, hran.runLength, hran.freeCount⟩

end Sys2Proof.Machine

/-! # O19, O20: the delta operations (`43_delta.md`)

Each stored field is zero-extended without loss, so a channel of the new pixel is a sum of numbers reduced modulo 256. -/

namespace Sys2Proof.Machine

theorem zext8_toNat {n : Nat} (hn : n ≤ 8) (v : BitVec n) : (zext8 v).toNat = v.toNat :=
  BitVec.toNat_setWidth_of_le hn

theorem applyBias_diffBias_toNat (x : Byte) (v : BitVec 2) :
    (applyBias x (zext8 v) diffBias).toNat = (x.toNat + v.toNat + 256 - 2) % 256 := by
  rw [applyBias_toNat, zext8_toNat (by decide)]
  rfl

/-- Settles O19: of the chunk that ran whole, `chunkPixel` has each colour channel moved by its field less the bias 2. -/
theorem diffResult : Obligations.DiffResult := by
  intro vr vg vb s
  refine ⟨fun hp hg => ?_, exec_faultEntered (i := .diff vr vg vb)⟩
  obtain ⟨t, ht, hran⟩ := exec_runs (i := .diff vr vg vb) hp hg
  exact ⟨t, diffPixel s.lastPix vr vg vb, ht, applyBias_diffBias_toNat _ _, applyBias_diffBias_toNat _ _,
    applyBias_diffBias_toNat _ _, rfl, hran.emitted, hran.table, hran.pc, hran.runLength, hran.freeCount⟩

theorem lumaGreenDelta_toNat (vg : BitVec 6) : (lumaGreenDelta vg).toNat = (vg.toNat + 224) % 256 := by
  rw [lumaGreenDelta, sub8_toNat, zext8_toNat (by decide)]
  rfl

theorem add8_lumaGreenDelta_toNat (x : Byte) (vg : BitVec 6) :
    (add8 x (lumaGreenDelta vg)).toNat = (x.toNat + vg.toNat + 224) % 256 := by
  rw [add8_toNat, lumaGreenDelta_toNat, Nat.add_mod_mod, Nat.add_assoc]

/-- The biases 32 and 8 together take 40 off, which is adding 216 modulo 256. -/
theorem lumaChroma_toNat (x : Byte) (vg : BitVec 6) (nibble : BitVec 4) :
    (lumaChroma x vg nibble).toNat = (x.toNat + vg.toNat + nibble.toNat + 216) % 256 := by
  have hnibble : (sub8 (zext8 nibble) lumaChromaBias).toNat = (nibble.toNat + 248) % 256 := by
    rw [sub8_toNat, zext8_toNat (by decide)]
    rfl
  rw [lumaChroma, add8_toNat, add8_toNat, lumaGreenDelta_toNat, hnibble]
  omega

/-- Settles O20: of the chunk that ran whole, `chunkPixel` has green moved by its delta, red and blue by a nibble more. -/
theorem lumaResult : Obligations.LumaResult := by
  intro vg vrg vbg s
  refine ⟨fun hp hg => ?_, exec_faultEntered (i := .luma vg vrg vbg)⟩
  obtain ⟨t, ht, hran⟩ := exec_runs (i := .luma vg vrg vbg) hp hg
  exact ⟨t, lumaPixel s.lastPix vg vrg vbg, ht, lumaChroma_toNat _ _ _, add8_lumaGreenDelta_toNat _ _,
    lumaChroma_toNat _ _ _, rfl, hran.emitted, hran.table, hran.pc, hran.runLength, hran.freeCount⟩

end Sys2Proof.Machine

/-! # O21, O22, O41: the run-length decoder (`44_run.md`)

A RUN chunk writes the first of its pixels and leaves the others to run continuations, which `run_ranOn` counts. -/

namespace Sys2Proof.Machine

/-- Settles O21: of the chunk that ran whole, `chunkPixel` is `last_pix` and `runLengthAfter` the stored value. -/
theorem runResult : Obligations.RunResult := by
  intro vrun s
  refine ⟨fun hp hg => ?_, exec_faultEntered (i := .run vrun)⟩
  obtain ⟨t, ht, hran⟩ := exec_runs (i := .run vrun) hp hg
  exact ⟨t, ht, hran.emitted, hran.table, hran.pc, hran.runLength, hran.freeCount⟩

/-- Settles O22: in InRun the step is the continuation, which needs a cell of the Grid and no byte. -/
theorem runContinuationResult : Obligations.RunContinuationResult := by
  intro s hb hr hg
  obtain ⟨t, ht, hc⟩ := runContinuation_runs hg
  exact ⟨t, (step_inRun hb (s.inRun_iff.mpr hr)).trans ht, hc.emitted, hc.table, hc.pc, hc.runLength_toNat hr,
    hc.freeCount⟩

/-! ## The chunk at the cursor -/

theorem fetch_run {s : State} {vrun : BitVec 6} (hle : vrun.toNat ≤ 61) (h : s.input[s.pc]? = some (0b11#2 ++ vrun)) :
    s.fetch = .ok (.run vrun) := by
  obtain ⟨hlt, htag⟩ := List.getElem?_eq_some_iff.mp h
  have hbytes : s.input.drop s.pc = encode (.run vrun) ++ s.input.drop (s.pc + 1) := by
    rw [List.drop_eq_getElem_cons hlt, htag]
    rfl
  exact State.fetch_ok (hbytes ▸ decode_encode (i := .run vrun) (decide_eq_true hle) _)

/-- With RUN's one byte at the cursor, the step runs the chunk whole (R110). -/
theorem step_run {s : State} {vrun : BitVec 6} (hb : s.status = .busy) (hr : s.runLength = 0) (hle : vrun.toNat ≤ 61)
    (h : s.input[s.pc]? = some (0b11#2 ++ vrun)) (hg : s.linear < s.grid.size) :
    ∃ t, step s = .next t ∧ ChunkRan (.run vrun) s t := by
  obtain ⟨hlt, -⟩ := List.getElem?_eq_some_iff.mp h
  obtain ⟨t, ht, hran⟩ := exec_runs (i := .run vrun) hlt hg
  exact ⟨t, (step_chunk hb (s.inRun_false_iff.mpr hr) (fetch_run hle h)).trans ht, hran⟩

/-! ## The continuations after the chunk -/

/-- Where the grid is full no continuation follows. -/
theorem RanOn.zero_of_done {s : State} (hd : s.status = .done) (hend : s.linear = s.pixels) : RanOn 0 s s where
  runLength := rfl
  pc := rfl
  lastPix := rfl
  table := rfl
  linear := rfl
  pixels := rfl
  gridSize := rfl
  cells j := by rw [if_neg (by omega)]
  goesOn hlt := absurd hend hlt.ne
  ends _ := hd

/-- A run within the grid ends DONE exactly at its last cell, and BUSY before it. -/
theorem RanOn.status {k : Nat} {s t : State} (h : RanOn k s t) (hk : s.linear + k ≤ s.pixels) :
    (t.status = .done ↔ s.linear + k = s.pixels) ∧ t.status ≠ .fault := by
  obtain hend | hlt := hk.eq_or_lt
  · simp [h.ends hend, hend]
  · obtain ⟨hb, -⟩ := h.goesOn hlt
    simp [hb, hlt.ne]

/-- After a write-back of a decode the run pending then goes on, if only for 0 steps because the grid is full. -/
theorem Emitted.run_continuations {s u : State} {px : Pixel} (h : Emitted s u px) (hb : s.status = .busy) (himage : s.InImage)
    (hgrid : s.pixels ≤ s.grid.size) {k : Nat} (hr : k ≤ u.runLength.toNat) (hk : u.linear + k ≤ u.pixels) :
    ∃ t, run k u = .next t ∧ RanOn k u t := by
  by_cases hd : u.status = .done
  · have hend : u.linear = u.pixels := (h.done_iff himage (by simp [hb])).mp hd
    obtain rfl : k = 0 := by omega
    exact ⟨u, rfl, .zero_of_done hd hend⟩
  · have hgrid' : u.pixels ≤ u.grid.size := by rwa [h.pixels, h.gridSize]
    exact run_ranOn ((h.status_of_ne_done hd).trans hb) (h.inImage himage hd) hgrid' hr hk

/-- The cells of a write-back and of the `k` continuations after it are the `k + 1` cells from the first position. -/
theorem RanOn.cells_of_emitted {k : Nat} {s u t : State} (h : RanOn k u t) (he : Emitted s u s.lastPix)
    (himage : s.InImage) (j : Nat) :
    t.grid.read j = if s.linear ≤ j ∧ j < s.linear + (k + 1) then some s.lastPix else s.grid.read j := by
  rw [h.cells, he.cells, he.lastPix, he.linear himage]
  by_cases hj : j = s.linear
  · rw [if_pos hj, ite_self, if_pos (by omega)]
  · rw [if_neg hj]
    exact if_congr (by omega) rfl rfl

/-- Settles O41: the chunk writes one pixel and leaves `vrun` continuations, each of which writes one more. -/
theorem runProducesItsCount : Obligations.RunProducesItsCount := by
  intro s vrun hle hb hr htag hrow hcol hgrid hfits
  have himage : s.InImage := ⟨hrow, hcol⟩
  obtain ⟨u, hu, hchunk⟩ := step_run hb hr hle htag (himage.linear_lt.trans_le hgrid)
  have he : Emitted s u s.lastPix := hchunk.emitted
  have hrun : u.runLength = vrun := hchunk.runLength
  have hlin : u.linear + vrun.toNat = s.linear + (vrun.toNat + 1) := by
    rw [he.linear himage]
    omega
  have hk : u.linear + vrun.toNat ≤ u.pixels := by
    rw [hlin, he.pixels]
    exact hfits
  obtain ⟨t, ht, hran⟩ := he.run_continuations hb himage hgrid (congrArg BitVec.toNat hrun).ge hk
  have hzero : t.runLength = 0 := BitVec.eq_of_toNat_eq (by rw [hran.runLength, hrun, Nat.sub_self]; rfl)
  have hstatus := hran.status hk
  rw [hlin, he.pixels] at hstatus
  exact ⟨t, (run_succ _ hu).trans ht, hzero, hran.pc.trans hchunk.pc, hran.lastPix.trans he.lastPix,
    hran.table.trans hchunk.table, hran.linear.trans hlin, hran.cells_of_emitted he himage, hstatus⟩

end Sys2Proof.Machine

/-! # O28, O29, O43: exceptions (`60_exceptions.md`)

A chunk is truncated exactly where fewer bytes are left than its operation takes (R52, R121), and the tag tells the
operation. A decode writes one cell per step until it faults or the grid is full, so it ends (R134). -/

namespace Sys2Proof

/-- R121 (b), (c), (d): the bytes left, the tag among them, are fewer than the tag's operation takes. -/
theorem Op.lt_length_iff {op : Op} {tag : Byte} (h : op.HasTag tag) {left : Nat} (hpos : 0 < left) :
    left < op.length ↔
      (tag = 0xFE#8 ∧ left ≤ 3) ∨ (tag = 0xFF#8 ∧ left ≤ 4) ∨ (0x80 ≤ tag.toNat ∧ tag.toNat ≤ 0xBF ∧ left = 1) := by
  simp only [← BitVec.toNat_inj, BitVec.toNat_ofNat]
  cases op <;> simp only [Op.HasTag, Op.length] at h ⊢ <;> omega

end Sys2Proof

namespace Sys2Proof.Machine

/-- Settles O28: each cause has its own lemma, and FBYTE takes the tag. -/
theorem faultEntryRecord : Obligations.FaultEntryRecord := fun s =>
  ⟨s.takeFault_truncated, fun tag => ⟨s.takeFault_unrecognized tag, s.takeFault_unrecognized_fbyte tag⟩⟩

/-! ## Where a step is truncated (R121) -/

/-- With a tag of `op` at the cursor, the fetch finds a chunk of `op` exactly where the bytes of one are there. -/
theorem fetch_cases_of_hasTag {s : State} {op : Op} {tag : Byte} (hop : op.HasTag tag)
    (htag : s.input[s.pc]? = some tag) :
    (s.len < s.pc + op.length ∧ s.fetch = .error (.truncated op)) ∨
    ∃ i, s.fetch = .ok i ∧ i.length = op.length ∧ s.pc + i.length ≤ s.len := by
  obtain ⟨hlt, hget⟩ := List.getElem?_eq_some_iff.mp htag
  have hbytes : s.input.drop s.pc = tag :: s.input.drop (s.pc + 1) := by rw [List.drop_eq_getElem_cons hlt, hget]
  have hdec := (congrArg decode hbytes).trans (decode_cons hop _)
  obtain ⟨hshort, herr⟩ | ⟨i, rest, hok, hi, -⟩ := decodeOperands_cases hop (s.input.drop (s.pc + 1))
  · rw [List.length_drop] at hshort
    exact .inl ⟨show s.input.length < _ by omega, State.fetch_error (hdec.trans herr)⟩
  · obtain ⟨chunk, hchunk, hlen, -⟩ := decode_local (hdec.trans hok)
    have hle : i.length ≤ s.input.length - s.pc := by
      rw [← hlen, ← List.length_drop, hchunk, List.length_append]
      exact Nat.le_add_right _ _
    exact .inr ⟨i, State.fetch_ok (hdec.trans hok), congrArg Op.length hi, show _ ≤ s.input.length by omega⟩

theorem step_faultEntered_of_fetch {s : State} {e : DecodeError} (hb : s.status = .busy) (hr : s.inRun = false)
    (hf : s.fetch = .error e) : ∃ t, step s = .next t ∧ FaultEntered s t .truncatedStream :=
  ⟨_, step_fetchFault hb hr hf, raisedBy_of_fetch hf ▸ s.takeFault_truncated⟩

/-- Settles O29: a continuation writes its cell, no byte at the cursor is no tag, and a tag's operation tells how many
bytes the chunk needs. -/
theorem truncationCases : Obligations.TruncationCases := by
  intro s hb hpc hg
  refine ⟨fun hpos => ?_, fun h0 => ?_⟩
  · obtain ⟨t, ht⟩ := step_next hb hg
    exact ⟨t, ht, (continued_of_step ht hpos).wroteCell.status_ne_fault ht⟩
  have hr := s.inRun_false_iff.mpr h0
  refine ⟨fun hnone => ?_, fun tag htag => ?_⟩
  · have hnil : s.input.drop s.pc = [] := List.drop_eq_nil_of_le (List.getElem?_eq_none_iff.mp hnone)
    exact step_faultEntered_of_fetch hb hr (State.fetch_error (e := .noTag) (hnil ▸ rfl))
  · obtain ⟨hlt, -⟩ := List.getElem?_eq_some_iff.mp htag
    obtain ⟨op, hop⟩ := exists_hasTag tag
    have hiff := Op.lt_length_iff hop (Nat.sub_pos_of_lt hlt)
    obtain ⟨hshort, hf⟩ | ⟨i, hf, hi, hp⟩ := fetch_cases_of_hasTag hop htag
    · rw [if_pos (hiff.mp (Nat.sub_lt_left_of_lt_add hpc hshort))]
      exact step_faultEntered_of_fetch hb hr hf
    · rw [if_neg (hiff.not.mp (Nat.not_lt_of_le (Nat.le_sub_of_add_le' (hi ▸ hp))))]
      obtain ⟨t, ht, hran⟩ := exec_runs hp hg
      have hstep := (step_chunk hb hr hf).trans ht
      exact ⟨t, hstep, hran.wroteCell.status_ne_fault hstep⟩

/-! ## The end of a decode (R134) -/

/-- A state that a longer run passes through is BUSY: no step leaves another status (R125). -/
theorem busy_of_run_lt {j k : Nat} {s t u : State} (hk : run k s = .next t) (hlt : j < k) (hj : run j s = .next u) :
    u.status = .busy := by
  obtain ⟨d, rfl⟩ := Nat.exists_eq_add_of_lt hlt
  rw [Nat.add_assoc, run_add _ hj] at hk
  obtain ⟨v, hv, -⟩ := run_succ_cases hk
  exact (step_cases hv).1

/-- A decode with `n` cells left to write ends within `n` steps: each step that leaves it BUSY has written one. -/
theorem exists_run_ends {n : Nat} {s : State} (hs : DecoderInv s) (hb : s.status = .busy)
    (hn : s.linear + n = s.pixels) :
    ∃ k t, run k s = .next t ∧ k ≤ n ∧ (t.status = .done ∨ t.status = .fault) := by
  have hinv := hs.busy hb
  induction n generalizing s with
  | zero => exact absurd hn hinv.inImage.linear_lt.ne
  | succ n ih =>
    obtain ⟨u, hu⟩ := step_next hb hinv.linear_lt
    have hone : run 1 s = .next u := run_succ 0 hu
    obtain hub | hend := step_status hu
    · have hlin := step_linear (hinv.cellsInOrder hb) hu (by simp [hub])
      have hpixels := run_keeps_pixels hone
      have hus := hs.step hu
      obtain ⟨k, t, ht, hk, hend⟩ := ih hus hub (by omega) (hus.busy hub)
      exact ⟨k + 1, t, (run_succ k hu).trans ht, Nat.succ_le_succ hk, hend⟩
    · exact ⟨1, u, hone, Nat.succ_le_succ (Nat.zero_le n), hend⟩

/-- Settles O43: no cell is written at the start, so the decode ends within as many steps as there are cells; at DONE
all are written, one by each step. -/
theorem everyDecodeEnds : Obligations.EveryDecodeEnds := by
  intro maxPixels req s s0 hstart
  have hs0 := hostStart_decoderInv hstart
  obtain ⟨-, -, -, -, rfl⟩ := hostStart_cases hstart
  set s0 := s.decodeStart req.width req.height req.input req.gridCells
  have hcells := (hs0.busy rfl).cellsInOrder rfl
  have hlin0 : s0.linear = 0 := by simp [s0, State.decodeStart, State.linear]
  obtain ⟨k, t, hk, hle, hend⟩ := exists_run_ends hs0 rfl ((Nat.add_comm _ _).trans (congrArg (s0.pixels + ·) hlin0))
  refine ⟨k, t, hk, hle, hend.imp_left fun hd => ⟨hd, ?_⟩, fun j u hj hu => busy_of_run_lt hk hj hu⟩
  calc k = t.linear := by rw [run_linear hcells hk (by simp [hd]), hlin0, Nat.zero_add]
    _ = t.pixels := (run_extends hcells hk).inOrder.atEnd hd
    _ = s0.pixels := run_keeps_pixels hk

end Sys2Proof.Machine

/-! # O24, O47 to O51: hazards, reset, start and the host's writes (`70_reset_and_hazards.md`)

An INDEX right after a chunk that records sees the record (R149): the table is forwarded whole from one step to the next.
Reset and start write the decode-start values whatever the state was (R140, R141); a start is refused at the first of its
tests that fails (R146). -/

namespace Sys2Proof.Machine

/-! ## The table from one chunk to the next (R149) -/

/-- A chunk that goes on and is wholly in the stream has run. -/
theorem chunkRan_of_exec {i : Instr} {s t : State} (h : exec i s = .next t) (hp : s.pc + i.length ≤ s.len) :
    ChunkRan i s t := by
  obtain hran | ⟨htrunc, -⟩ := exec_cases h
  · exact hran
  · exact absurd hp (Nat.not_le_of_lt htrunc)

theorem Recorded.slot_pixelHash {s t : State} {px : Pixel} (h : Recorded s t px) : t.slot (pixelHash px) = px :=
  (h _).trans (if_pos rfl)

/-- Settles O24: the chunk recorded its pixel (O23), so the slot the INDEX reads holds it, and the INDEX writes it back. -/
theorem indexAfterRecordReadsIt : Obligations.IndexAfterRecordReadsIt := by
  intro i s t u ht hp hop hu hpt
  have hrecorded : Recorded s t t.lastPix := by
    have htable := tableWriters.1 i s t ht hp
    obtain hop | hop | hop | hop := hop
    all_goals
      rw [hop] at htable
      exact htable
  have hemitted : Emitted t u (t.slot (pixelHash t.lastPix)) := (chunkRan_of_exec hu hpt).emitted
  rw [hrecorded.slot_pixelHash] at hemitted
  exact ⟨hemitted.lastPix, (hemitted.cells _).trans (if_pos rfl)⟩

/-! ## Reset (R140) -/

/-- Settles O47: the values are those `State.reset` writes, the table 64 zero slots. -/
theorem resetValues : Obligations.ResetValues :=
  ⟨rfl, rfl, slot_replicate _ _ rfl, rfl, rfl, rfl, rfl, rfl, rfl, rfl, rfl⟩

/-- Settles O48: each field is one that reset assigns or one that it keeps, and every slot is assigned. -/
theorem hardwareReset : Obligations.HardwareReset := fun _ =>
  ⟨rfl, rfl, slot_replicate _ _ rfl, rfl, rfl, rfl, rfl, rfl, rfl, rfl, rfl, rfl, rfl, rfl, rfl⟩

/-! ## Start, test by test (R141, R146) -/

section Start

variable {maxPixels : Option Nat} {r : StartRequest} {s : State}

theorem hostStart_of_busy (hb : s.status = .busy) : hostStart maxPixels r s = .refused .startWhileBusy := if_pos hb

theorem hostStart_of_zeroDimension (hb : s.status ≠ .busy) (hz : r.width = 0 ∨ r.height = 0) :
    hostStart maxPixels r s = .refused .zeroDimension := by
  rw [hostStart, if_neg hb, if_pos hz]

theorem hostStart_of_gridTooSmall (hb : s.status ≠ .busy) (hz : ¬(r.width = 0 ∨ r.height = 0))
    (hn : r.gridCells < r.pixels) : hostStart maxPixels r s = .refused .gridTooSmall := by
  rw [hostStart, if_neg hb, if_neg hz, if_pos hn]

theorem hostStart_eq_decodeStart (hb : s.status ≠ .busy) (hz : ¬(r.width = 0 ∨ r.height = 0))
    (hn : r.pixels ≤ r.gridCells) (hfits : r.fits maxPixels = true) :
    hostStart maxPixels r s = .next (s.decodeStart r.width r.height r.input r.gridCells) := by
  rw [hostStart, if_neg hb, if_neg hz, if_neg (Nat.not_lt_of_le hn), if_neg (ne_false_of_eq_true hfits)]

theorem StartRequest.fits_of_le (h : ∀ n, maxPixels = some n → r.pixels ≤ n) : r.fits maxPixels = true := by
  cases maxPixels with
  | none => rfl
  | some n => exact decide_eq_true (h n rfl)

end Start

/-- Settles O49: no test of the start fails, so it answers the decode-start state. -/
theorem startEstablishesDecodeStart : Obligations.StartEstablishesDecodeStart := by
  intro maxPixels req s hb hw hh hn hmax
  have hz : ¬(req.width = 0 ∨ req.height = 0) := by
    rintro (h0 | h0)
    · simp [h0] at hw
    · simp [h0] at hh
  exact ⟨_, hostStart_eq_decodeStart hb hz hn (StartRequest.fits_of_le hmax), rfl, rfl, slot_replicate _ _ rfl,
    rfl, rfl, rfl, rfl, rfl, rfl, rfl, rfl, rfl, rfl, rfl, rfl⟩

/-- Settles O50: of a start without meaning one of the first three tests fails, and the first to fail names the refusal. -/
theorem meaninglessStartsAreRefused : Obligations.MeaninglessStartsAreRefused := by
  intro maxPixels req s hmeaningless
  by_cases hb : s.status = .busy
  · exact ⟨_, hostStart_of_busy hb, .inl rfl⟩
  by_cases hz : req.width = 0 ∨ req.height = 0
  · exact ⟨_, hostStart_of_zeroDimension hb hz, .inr (.inl rfl)⟩
  · have hn : req.gridCells < req.pixels := (or_assoc.mpr (hmeaningless.resolve_left hb)).resolve_left hz
    exact ⟨_, hostStart_of_gridTooSmall hb hz hn, .inr (.inr rfl)⟩

/-! ## The dimensions (`10_state.md` §5) -/

/-- Settles O51: the move tests STATUS alone. -/
theorem dimensionsOnlyWhileNotBusy : Obligations.DimensionsOnlyWhileNotBusy := fun _ _ _ =>
  ⟨fun hb => if_neg hb, fun hb => if_pos hb⟩

end Sys2Proof.Machine
